-- ==== Sys2Proof/Word.lean ====
section
/-! DEFINITION. Words and bytes of the block, and the placing of a field in a word (`00_scope.md` R10). -/

namespace Sys2Proof

/-- A 32-bit register or bus word (R10, R82). -/
abbrev Word := BitVec 32

/-- One byte of a buffer or of a packet (R11). -/
abbrev Byte := BitVec 8

/-- The one-bit field `b` placed at bit `i` of a word. -/
def placeBit (b : Bool) (i : Nat) : Word := if b then 1#32 <<< i else 0#32

/-- The field `v` placed with its bit 0 at bit `i` of a word, zero-extended. -/
def placeField {n : Nat} (v : BitVec n) (i : Nat) : Word := v.setWidth 32 <<< i

end Sys2Proof
end

