-- ==== Sys2Proof/Config.lean ====
section
/-! DEFINITION. The parameters of the block: the fixed ones of `00_scope.md` R7, the open ones of R8
(`93_implementation_defined.md` section 1), and the free values (`draw()`, R13). The open parameters and
the free values have no body, so that no proof can see them. -/

namespace Sys2Proof

/-- What a read of a buffer byte never written since reset does: the allowed values of `UNINIT_READ` (R8, D34). -/
inductive UninitRead where
  | fault
  | draw
deriving DecidableEq, Repr, Inhabited

/-- `BASE`, the platform address of the bus window: OPEN (R8, D2). -/
opaque Config.base : Nat

/-- `UNINIT_READ`: OPEN (R8, R89, R150, D34). -/
opaque Config.uninitRead : UninitRead

/-- `draw()`: the `k`-th free value of a run, any 32-bit value, with no law connecting two of them (R13). -/
opaque Config.draw : Nat → Word

/-- A `draw()` of one byte (R13, R91, R150). -/
def Config.drawByte (k : Nat) : Byte := (Config.draw k).setWidth 8

/-- `CAP_SOH` (R7). -/
def Config.capSoh : Nat := 128

/-- `CAP_STX` (R7). -/
def Config.capStx : Nat := 1024

/-- `PBUF_SIZE` (R7). -/
def Config.pbufSize : Nat := 1024

/-- `FBUF_SIZE` (R7). -/
def Config.fbufSize : Nat := 1029

/-- `CRC_WMAX` (R7). -/
def Config.crcWmax : Nat := 32

/-- The size in bytes of the bus window (R7, R80). -/
def Config.windowSize : Nat := 4096

/-- The constant of the `ID` register (R31). -/
def Config.idValue : Word := 0x58590100#32

end Sys2Proof
end

