-- ==== Sys2Proof/Machine/State.lean ====
section
/-! DEFINITION. The state of the block as plain data (`10_state.md` R30), the steps its agents can take
(`20_memory.md` R97), the reasons a step can stop (`60_exceptions.md` R246), and the state right after reset (R59). -/

namespace Sys2Proof.Machine

/-- `FRAME_CFG.TYPE`: SOH or STX (R46). -/
inductive PacketType where
  | soh
  | stx
deriving DecidableEq, Repr

/-- `FRAME_CFG.SCHEME`: the scheme set and the reserved value, stored as written (R46). -/
inductive Scheme where
  | none
  | additive
  | crc16
  | reserved
deriving DecidableEq, Repr

/-- `STATUS.ERRCODE`. The codes 6 to 15 are never produced (R240). -/
inductive ErrCode where
  | none
  | payloadTooLarge
  | illegalCmd
  | badScheme
  | lengthRange
  | busyViolation
deriving DecidableEq, Repr

/-- The sixteen registers by name (R30). -/
inductive Reg where
  | id
  | ctrl
  | status
  | cmd
  | crcPoly
  | crcInit
  | crcXorout
  | crcCfg
  | crcAcc
  | crcResult
  | sumAcc
  | len
  | seq
  | frameCfg
  | frameLen
  | fileSize
deriving DecidableEq, Repr

/-- The width of a host access: 1, 2 or 4 bytes (R82). -/
inductive AccessSize where
  | b1
  | b2
  | b4
deriving DecidableEq, Repr

/-- The direction of a host access, as `BusError(off, n, dir)` names it (R86). -/
inductive Dir where
  | read
  | write
deriving DecidableEq, Repr

/-- One host access at the offset `off` from `BASE` (R13, R80). A write of `n` bytes moves the low `8 * n` bits of `v`. -/
inductive Access where
  | read (off : Nat) (n : AccessSize)
  | write (off : Nat) (n : AccessSize) (v : Word)
deriving DecidableEq, Repr

/-- One step of one of the three agents (R18, R97): a host access, a performance by the engine, a reset. -/
inductive Event where
  | access (a : Access)
  | perform
  | reset
deriving DecidableEq, Repr

/-- What the last host access was answered with: a read's value, zero-extended to 32 bits, or a write's acknowledgement. -/
inductive Response where
  | data (v : Word)
  | ack
deriving DecidableEq, Repr

/-- A buffer: the bytes written since reset, by index, in strictly rising order. A byte not listed has not been
written since reset (R50, R51). -/
abbrev Memory := List Host.Cell

/-- Why a run of the model stops (R246). None of them changes any state of the block. All are safe: the model
stops where a block would go on. -/
inductive Fault where
  /-- Raised by a host access of a width or alignment its region does not allow (R83, R84, R86). Safe: the block's state
  does not change at such an access, and what the host does next is not modelled. -/
  | busError (off : Nat) (n : AccessSize) (dir : Dir)
  /-- Raised by a host read, at offset `off`, of a buffer byte never written since reset, when `UNINIT_READ` is `fault`
  (R89, R91). Safe: the hardware would read some value. -/
  | uninitRead (off : Nat)
  /-- Raised by a command that reads `PBUF[i]`, never written since reset, when `UNINIT_READ` is `fault` (R150).
  Safe: the hardware would use some value. -/
  | uninitOperand (i : Nat)
deriving DecidableEq, Repr

/-- Why the model gives no meaning to a command. No meaning refuses: every command of the table has its effect. -/
inductive Refusal where
  /-- Raised by an arm of `exec` whose command has no meaning yet; no arm raises it now. Safe: the model stops. -/
  | notModelled (mnemonic : String)
deriving DecidableEq, Repr

/-- The architectural state of R30, register field by register field, then the model's own fields. `ID` is a constant
(`Config.idValue`), `CMD` and `CRC_RESULT` hold no state (R35, R42), and `STATUS.BUSY` is 1 exactly when `pending` is
not empty (R33), so it is computed from it. -/
structure State where
  /-- `CTRL.IE_DONE` (R32) -/
  ieDone : Bool
  /-- `CTRL.IE_ERR` (R32) -/
  ieErr : Bool
  /-- `STATUS.DONE` (R33) -/
  done : Bool
  /-- `STATUS.ERR` (R33) -/
  err : Bool
  /-- `STATUS.ERRCODE` (R33, R240) -/
  errCode : ErrCode
  /-- `CRC_POLY` (R36) -/
  crcPoly : Word
  /-- `CRC_INIT` (R37) -/
  crcInit : Word
  /-- `CRC_XOROUT` (R38) -/
  crcXorout : Word
  /-- `CRC_CFG.WIDTH` (R39, R40) -/
  crcWidth : BitVec 6
  /-- `CRC_CFG.REFIN` (R39) -/
  crcRefin : Bool
  /-- `CRC_CFG.REFOUT` (R39) -/
  crcRefout : Bool
  /-- `CRC_ACC` (R41) -/
  crcAcc : Word
  /-- `SUM_ACC.SUM` (R43) -/
  sumAcc : Byte
  /-- `LEN.LEN` (R44) -/
  len : BitVec 16
  /-- `SEQ.SEQ` (R45) -/
  seq : Byte
  /-- `FRAME_CFG.TYPE` (R46) -/
  frameType : PacketType
  /-- `FRAME_CFG.SCHEME` (R46) -/
  frameScheme : Scheme
  /-- `FRAME_LEN` (R47) -/
  frameLen : BitVec 11
  /-- `FILE_SIZE` (R48) -/
  fileSize : Word
  /-- `PBUF`, 1024 bytes (R50) -/
  pbuf : Memory
  /-- `FBUF`, 1029 bytes (R51) -/
  fbuf : Memory
  /-- The command latch (R52) -/
  pending : Option Word
  /-- The model's own: the steps still to come, oldest first, in the one total order of R97 (log entry 1). -/
  schedule : List Event
  /-- The model's own: how many free values have been drawn (R13, log entry 2). -/
  draws : Nat
  /-- The model's own: the answer to the last host access (R13, log entry 3). -/
  lastResponse : Option Response
deriving DecidableEq, Repr

/-- The state right after reset (R59, the table of R30), with nothing written in the buffers and no step to come. -/
def State.reset : State where
  ieDone := false
  ieErr := false
  done := false
  err := false
  errCode := .none
  crcPoly := 0x00001021#32
  crcInit := 0#32
  crcXorout := 0#32
  crcWidth := 16#6
  crcRefin := false
  crcRefout := false
  crcAcc := 0#32
  sumAcc := 0#8
  len := 0#16
  seq := 0#8
  frameType := .soh
  frameScheme := .none
  frameLen := 0#11
  fileSize := 0#32
  pbuf := []
  fbuf := []
  pending := none
  schedule := []
  draws := 0
  lastResponse := none

end Sys2Proof.Machine
end

