-- ==== Sys2Proof/Machine/Flags.lean ====
section
/-! DEFINITION. `STATUS` and the interrupt: the flags, the recording of an error, the W1C write and `irq`
(`10_state.md` R33, R34, R57; `60_exceptions.md` R240 to R252). -/

namespace Sys2Proof.Machine

/-- The number of an error code (R240). -/
def ErrCode.code : ErrCode → BitVec 4
  | .none => 0#4
  | .payloadTooLarge => 1#4
  | .illegalCmd => 2#4
  | .badScheme => 3#4
  | .lengthRange => 4#4
  | .busyViolation => 5#4

/-- `STATUS.BUSY`: 1 exactly when `pending` is not empty (R33). -/
def State.busy (s : State) : Bool := s.pending.isSome

/-- The value of `STATUS` (R33); the bits [7:3] and [31:12] are RAZ. -/
def statusWord (s : State) : Word :=
  placeBit s.busy 0 ||| placeBit s.done 1 ||| placeBit s.err 2 ||| placeField s.errCode.code 8

/-- `record_error(code)`: the first error since `ERR` was last 0 keeps its code (R241, R243). -/
def recordError (code : ErrCode) (s : State) : State :=
  { s with err := true, errCode := if s.err then s.errCode else code }

/-- A write of `v` to `STATUS`: write 1 to clear `DONE`, and `ERR` with `ERRCODE` (R34). -/
def writeStatus (v : Word) (s : State) : State :=
  { s with
    done := s.done && !v.getLsbD 1
    err := s.err && !v.getLsbD 2
    errCode := if v.getLsbD 2 then .none else s.errCode }

/-- The interrupt output, a function of the state (R250). -/
def irq (s : State) : Bool := (s.ieDone && s.done) || (s.ieErr && s.err)

end Sys2Proof.Machine
end

