-- ==== Sys2Proof/Machine/Ops.lean ====
section
/-! DEFINITION. The shared operations: reading and writing a buffer byte, the byte lanes of the bus
(`20_memory.md` R85), the resolution of bytes the spec leaves open (R89, R150), and the completion of a command,
with and without an error (`40_command_control.md` R143, `60_exceptions.md` R244). -/

namespace Sys2Proof.Machine

/-- The buffer byte at index `k`; `none` if it has not been written since reset. -/
def Memory.read : Memory → Nat → Option Byte
  | [], _ => none
  | (a, b) :: m, k => if k = a then some b else Memory.read m k

/-- Write one buffer byte, in the place that keeps the indices rising. -/
def Memory.write : Memory → Nat → Byte → Memory
  | [], k, v => [(k, v)]
  | (a, b) :: m, k, v =>
    if k < a then (k, v) :: (a, b) :: m
    else if k = a then (k, v) :: m
    else (a, b) :: Memory.write m k v

/-- The canonical form: indices strictly rising. An index not listed reads as no value, so no entry equals it. -/
abbrev Memory.wf (m : Memory) : Prop := List.Pairwise (fun x y => x.1 < y.1) m

/-- Every listed index is below `size`. -/
abbrev Memory.within (m : Memory) (size : Nat) : Prop := ∀ c ∈ m, c.1 < size

/-- Write the bytes `bs` at the indices from `k` on (R85, R205). -/
def Memory.store (m : Memory) (k : Nat) : List Byte → Memory
  | [] => m
  | b :: bs => Memory.store (Memory.write m k b) (k + 1) bs

/-- The buffer that holds exactly the bytes `bs`, from index `k` on. -/
def Memory.listed (k : Nat) : List Byte → Memory
  | [] => []
  | b :: bs => (k, b) :: Memory.listed (k + 1) bs

/-- `zeros(n)` (R11). -/
def zeros (n : Nat) : List Byte := List.replicate n 0#8

/-- The bytes of an access (R82). -/
def AccessSize.bytes : AccessSize → Nat
  | .b1 => 1
  | .b2 => 2
  | .b4 => 4

/-- Byte `j` of a bus word: bits [8j+7:8j] (R85). -/
def laneByte (v : Word) (j : Nat) : Byte := v.extractLsb' (8 * j) 8

/-- The bytes a write of `n` bytes stores, lowest offset first (R85). -/
def laneBytes (v : Word) (n : AccessSize) : List Byte := (List.range n.bytes).map (laneByte v)

/-- The bus value of the bytes read, the lowest offset in bits [7:0] (R85). -/
def assemble : List Byte → Word
  | [] => 0#32
  | b :: bs => b.setWidth 32 + (assemble bs <<< 8)

/-- Where a byte that is read comes from: a known value, a `draw()` (R56, R91), or a byte never written since reset,
which reads as `UNINIT_READ` says (R89, R150). -/
inductive ByteSource where
  | known (b : Byte)
  | free
  | unwritten
deriving DecidableEq, Repr

/-- The source of a byte that the buffer holds or has not been written since reset (R89, R91). -/
def storedSource : Option Byte → ByteSource
  | some b => .known b
  | none => .unwritten

/-- The source of `PBUF[k]` (R89). -/
def pbufSource (s : State) (k : Nat) : ByteSource := storedSource (s.pbuf.read k)

/-- The source of byte `k` of the `FBUF` window: zero above index 1028, a `draw()` while `BUSY` = 1 (R91). -/
def fbufSource (s : State) (k : Nat) : ByteSource :=
  if Config.fbufSize ≤ k then .known 0#8
  else if s.busy then .free
  else storedSource (s.fbuf.read k)

/-- One byte in front of the bytes resolved after it. -/
def prependByte (b : Byte) (r : Except Nat (List Byte × Nat)) : Except Nat (List Byte × Nat) :=
  r.map (fun p => (b :: p.1, p.2))

/-- The bytes of a list of sources whose first has position `i`, and the number of free values drawn, with `d` drawn
before: a fresh `draw()` for each free byte, and for each unwritten one when `UNINIT_READ` is `draw`. When it is `fault`,
the position of the first unwritten byte instead (R89, R91, R150). -/
def resolve (i : Nat) : List ByteSource → Nat → Except Nat (List Byte × Nat)
  | [], d => .ok ([], d)
  | .known b :: cs, d => prependByte b (resolve (i + 1) cs d)
  | .free :: cs, d => prependByte (Config.drawByte d) (resolve (i + 1) cs (d + 1))
  | .unwritten :: cs, d =>
    match Config.uninitRead with
    | .fault => .error i
    | .draw => prependByte (Config.drawByte d) (resolve (i + 1) cs (d + 1))

/-- `complete()`: `BUSY` cleared, by emptying the latch, and `DONE` set (R142, R143). -/
def complete (s : State) : State := { s with pending := none, done := true }

/-- `error_complete(code)`: what raising an error does, of which the block has no other entry (R244, R249). It acts on
the state before the command's writes, which are discarded. -/
def errorComplete (code : ErrCode) (s : State) : State :=
  { recordError code s with pending := none, done := true }

end Sys2Proof.Machine
end

