-- ==== Sys2Proof/Machine/Crc.lean ====
section
/-! DEFINITION. The arithmetic of the engine (`41_crc_checksum.md` section 1): mask, reflection, the bit-serial CRC,
its output function, CRC-16/XMODEM and the additive checksum. -/

namespace Sys2Proof.Machine

/-- `mask(W) = 2^W − 1` (R170). -/
def mask (w : Nat) : Word := BitVec.ofNat 32 (2 ^ w - 1)

/-- `reflect_n(v)`: bit `i` of the result is bit `n − 1 − i` of `v` (R171). -/
def reflect : Nat → Word → Word
  | 0, _ => 0#32
  | n + 1, v => (reflect n v <<< 1) ||| placeBit (v.getLsbD n) 0

/-- `reflect_8` of a byte (R171). -/
def reflectByte (b : Byte) : Byte := (reflect 8 (b.setWidth 32)).setWidth 8

/-- The bits of a byte, most significant first (R172). -/
def bitsMsbFirst (b : Byte) : List Bool :=
  [b.getLsbD 7, b.getLsbD 6, b.getLsbD 5, b.getLsbD 4, b.getLsbD 3, b.getLsbD 2, b.getLsbD 1, b.getLsbD 0]

/-- One turn of the loop of `crc_step`: one bit enters the register (R172). -/
def crcBit (w : Nat) (poly acc : Word) (bit : Bool) : Word :=
  let shifted := (acc <<< 1) &&& mask w
  if acc.getLsbD (w - 1) != bit then shifted ^^^ (poly &&& mask w) else shifted

/-- `crc_step(acc, b, W, poly, refin)` (R172). -/
def crcStep (acc : Word) (b : Byte) (w : Nat) (poly : Word) (refin : Bool) : Word :=
  (bitsMsbFirst (if refin then reflectByte b else b)).foldl (crcBit w poly) acc

/-- `crc_final(acc, W, refout, xorout)` (R173). -/
def crcFinal (acc : Word) (w : Nat) (refout : Bool) (xorout : Word) : Word :=
  let r := acc &&& mask w
  ((if refout then reflect w r else r) ^^^ xorout) &&& mask w

/-- The running register after the bytes `s`, from `acc` (R174, R179). -/
def crcSteps (w : Nat) (poly : Word) (refin : Bool) (acc : Word) (s : List Byte) : Word :=
  s.foldl (fun a b => crcStep a b w poly refin) acc

/-- `crc16x(s)`, a 16-bit value (R174). -/
def crc16x (s : List Byte) : BitVec 16 :=
  (crcFinal (crcSteps 16 0x1021#32 false 0#32 s) 16 false 0#32).setWidth 16

/-- `sum8(s)`: the sum of the bytes modulo 256 (R175). -/
def sum8 (s : List Byte) : Byte := s.foldl (fun a b => a + b) 0#8

end Sys2Proof.Machine
end

