-- ==== Sys2Proof/Machine/Operands.lean ====
section
/-! DEFINITION. The operands of the commands: the encodings of `TYPE` and `SCHEME` (`10_state.md` R46), the capacity of a
packet type, the bytes read from `PBUF` (`30_encoding.md` R113, `40_command_control.md` R150) and the decimal digits of
`FILE_SIZE` (`42_framer.md` R211). -/

namespace Sys2Proof.Machine

/-- `FRAME_CFG[0]`: 0 selects SOH and 1 STX (R46). -/
def PacketType.ofBit (b : Bool) : PacketType := if b then .stx else .soh

/-- The `TYPE` bit as read back (R46). -/
def PacketType.bit : PacketType → Bool
  | .soh => false
  | .stx => true

/-- The payload capacity of a packet type (R7, R201). -/
def PacketType.cap : PacketType → Nat
  | .soh => Config.capSoh
  | .stx => Config.capStx

/-- The type byte of a packet (R125, R201). -/
def PacketType.byte : PacketType → Byte
  | .soh => 0x01#8
  | .stx => 0x02#8

/-- `FRAME_CFG[5:4]`: 0b00 NONE, 0b01 ADDITIVE_CHECKSUM, 0b10 CRC16, 0b11 reserved (R46). -/
def Scheme.ofBits (v : BitVec 2) : Scheme :=
  if v = 0#2 then .none
  else if v = 1#2 then .additive
  else if v = 2#2 then .crc16
  else .reserved

/-- The `SCHEME` field as read back (R46). -/
def Scheme.bits : Scheme → BitVec 2
  | .none => 0#2
  | .additive => 1#2
  | .crc16 => 2#2
  | .reserved => 3#2

/-- The error detection of a trailer: the additive checksum or CRC-16/XMODEM (R201). -/
inductive Trailer where
  | checksum
  | crc
deriving DecidableEq, Repr

/-- The length of a trailer: 1 byte or 2 (R201). -/
def Trailer.size : Trailer → Nat
  | .checksum => 1
  | .crc => 2

/-- The trailer a scheme asks for. NONE and the reserved value have no framing meaning (R202). -/
def Scheme.trailer? : Scheme → Option Trailer
  | .none => Option.none
  | .additive => some .checksum
  | .crc16 => some .crc
  | .reserved => Option.none

/-- The `W` in force (R170). -/
def State.width (s : State) : Nat := s.crcWidth.toNat

/-- The operand bytes `PBUF[0], …, PBUF[n−1]`, with the number of free values drawn so far; or the lowest index never
written, when `UNINIT_READ` is `fault` (R150). -/
def loadPbuf (n : Nat) (s : State) : Except Nat (List Byte × Nat) :=
  resolve 0 ((List.range n).map (pbufSource s)) s.draws

/-- The byte of a decimal digit (R211). -/
def digitByte (k : Nat) : Byte := BitVec.ofNat 8 (0x30 + k)

/-- The decimal digits of `n`, most significant first, for `n` below `10 ^ fuel`. -/
def decDigits : Nat → Nat → List Byte
  | 0, _ => []
  | fuel + 1, n => if n < 10 then [digitByte n] else decDigits fuel (n / 10) ++ [digitByte (n % 10)]

/-- `dec(S)`: at most 10 digits, since `S` is below 2^32 (R211). -/
def dec (size : Word) : List Byte := decDigits 10 size.toNat

end Sys2Proof.Machine
end

