-- ==== Sys2Proof/Machine/Registers.lean ====
section
/-! DEFINITION. The register region: the map of `10_state.md` R30, the value each register reads as, what a write to it
does, and the blocked writes (`20_memory.md` R87, R88; `40_command_control.md` R141, R146). -/

namespace Sys2Proof.Machine

/-- The offset of a register from `BASE` (R30). -/
def Reg.offset : Reg → Nat
  | .id => 0x000
  | .ctrl => 0x004
  | .status => 0x008
  | .cmd => 0x00C
  | .crcPoly => 0x010
  | .crcInit => 0x014
  | .crcXorout => 0x018
  | .crcCfg => 0x01C
  | .crcAcc => 0x020
  | .crcResult => 0x024
  | .sumAcc => 0x028
  | .len => 0x02C
  | .seq => 0x030
  | .frameCfg => 0x034
  | .frameLen => 0x038
  | .fileSize => 0x03C

/-- The registers in the order of the map (R30). -/
def Reg.all : List Reg :=
  [.id, .ctrl, .status, .cmd, .crcPoly, .crcInit, .crcXorout, .crcCfg] ++
  [.crcAcc, .crcResult, .sumAcc, .len, .seq, .frameCfg, .frameLen, .fileSize]

/-- The register at an offset; `none` at a reserved offset (R49). -/
def regAt (off : Nat) : Option Reg := Reg.all.find? (fun r => r.offset == off)

/-- Result state, of which a read while `BUSY` = 1 is a `draw()` (R56). -/
def Reg.isResult : Reg → Bool
  | .crcAcc => true
  | .crcResult => true
  | .sumAcc => true
  | .seq => true
  | .frameLen => true
  | .id => false
  | .ctrl => false
  | .status => false
  | .cmd => false
  | .crcPoly => false
  | .crcInit => false
  | .crcXorout => false
  | .crcCfg => false
  | .len => false
  | .frameCfg => false
  | .fileSize => false

/-- The registers a write to which is blocked while `BUSY` = 1 (R146). -/
def Reg.isBlocked : Reg → Bool
  | .cmd => true
  | .crcPoly => true
  | .crcInit => true
  | .crcXorout => true
  | .crcCfg => true
  | .len => true
  | .seq => true
  | .frameCfg => true
  | .fileSize => true
  | .id => false
  | .ctrl => false
  | .status => false
  | .crcAcc => false
  | .crcResult => false
  | .sumAcc => false
  | .frameLen => false

/-- The bits of a register that are not reserved (R31 to R49). Every bit of a word written to `CMD` counts (R110). -/
def Reg.fieldMask : Reg → Word
  | .id => 0xFFFFFFFF#32
  | .ctrl => 0x00000003#32
  | .status => 0x00000F07#32
  | .cmd => 0xFFFFFFFF#32
  | .crcPoly => 0xFFFFFFFF#32
  | .crcInit => 0xFFFFFFFF#32
  | .crcXorout => 0xFFFFFFFF#32
  | .crcCfg => 0x0000033F#32
  | .crcAcc => 0xFFFFFFFF#32
  | .crcResult => 0xFFFFFFFF#32
  | .sumAcc => 0x000000FF#32
  | .len => 0x0000FFFF#32
  | .seq => 0x000000FF#32
  | .frameCfg => 0x00000031#32
  | .frameLen => 0x000007FF#32
  | .fileSize => 0xFFFFFFFF#32

/-- `CRC_RESULT`, computed at each read (R42). -/
def crcResult (s : State) : Word := crcFinal s.crcAcc s.width s.crcRefout s.crcXorout

/-- The value of a register; reserved bits are zero (R31 to R48). -/
def regValue (r : Reg) (s : State) : Word :=
  match r with
  | .id => Config.idValue
  | .ctrl => placeBit s.ieDone 0 ||| placeBit s.ieErr 1
  | .status => statusWord s
  | .cmd => 0#32
  | .crcPoly => s.crcPoly
  | .crcInit => s.crcInit
  | .crcXorout => s.crcXorout
  | .crcCfg => placeField s.crcWidth 0 ||| placeBit s.crcRefin 8 ||| placeBit s.crcRefout 9
  | .crcAcc => s.crcAcc
  | .crcResult => crcResult s
  | .sumAcc => placeField s.sumAcc 0
  | .len => placeField s.len 0
  | .seq => placeField s.seq 0
  | .frameCfg => placeBit s.frameType.bit 0 ||| placeField s.frameScheme.bits 4
  | .frameLen => placeField s.frameLen 0
  | .fileSize => s.fileSize

/-- The value a 32-bit read of a register returns, and the number of free values drawn after it (R56, R87). -/
def readReg (r : Reg) (s : State) : Word × Nat :=
  if r.isResult && s.busy then (Config.draw s.draws, s.draws + 1) else (regValue r s, s.draws)

/-- `WIDTH` after a write whose bits [5:0] are `v`: WARL, legal values 1 to 32 (R40). -/
def warlWidth (v old : BitVec 6) : BitVec 6 :=
  if 1 ≤ v.toNat ∧ v.toNat ≤ Config.crcWmax then v else old

/-- A write that is not blocked: an RW register stores its writable fields, `STATUS` is W1C, `CMD` issues, and an RO
register ignores it (R34, R88, R141). -/
def storeReg (r : Reg) (v : Word) (s : State) : State :=
  match r with
  | .id => s
  | .ctrl => { s with ieDone := v.getLsbD 0, ieErr := v.getLsbD 1 }
  | .status => writeStatus v s
  | .cmd => { s with pending := some v }
  | .crcPoly => { s with crcPoly := v }
  | .crcInit => { s with crcInit := v }
  | .crcXorout => { s with crcXorout := v }
  | .crcCfg =>
    { s with
      crcWidth := warlWidth (v.extractLsb' 0 6) s.crcWidth
      crcRefin := v.getLsbD 8
      crcRefout := v.getLsbD 9 }
  | .crcAcc => s
  | .crcResult => s
  | .sumAcc => s
  | .len => { s with len := v.extractLsb' 0 16 }
  | .seq => { s with seq := v.extractLsb' 0 8 }
  | .frameCfg =>
    { s with
      frameType := PacketType.ofBit (v.getLsbD 0)
      frameScheme := Scheme.ofBits (v.extractLsb' 4 2) }
  | .frameLen => s
  | .fileSize => { s with fileSize := v }

/-- `blocked_write()`: nothing is stored and `BUSY_VIOLATION` is recorded (R146). -/
def blockedWrite (s : State) : State := recordError .busyViolation s

/-- A 32-bit write of a register (R88). -/
def writeReg (r : Reg) (v : Word) (s : State) : State :=
  if r.isBlocked && s.busy then blockedWrite s else storeReg r v s

end Sys2Proof.Machine
end

