-- ==== Sys2Proof/Machine/Bus.lean ====
section
/-! DEFINITION. The two steps the outside makes: a host access (`20_memory.md` R80 to R93) and a reset
(`70_reset_and_hazards.md` R280). -/

namespace Sys2Proof.Machine

/-- The three regions of the window (R81). -/
inductive Region where
  | registers
  | pbuf
  | fbuf
deriving DecidableEq, Repr

/-- The region of an offset, decoded from `off[11:10]` (R81). -/
def regionOf (off : Nat) : Region :=
  if off < 0x400 then .registers
  else if off < 0x800 then .pbuf
  else .fbuf

/-- The platform address of an offset (R80). -/
def busAddress (off : Nat) : Nat := Config.base + off

/-- The offset a platform access of `n` bytes at `addr` names; `none` where its bytes leave the window, so that it is no
access to the block (R80). -/
def offsetOf (addr : Nat) (n : AccessSize) : Option Nat :=
  if Config.base ≤ addr ∧ addr + n.bytes ≤ Config.base + Config.windowSize then some (addr - Config.base) else none

/-- The offset of an access. -/
def Access.off : Access → Nat
  | .read off _ => off
  | .write off _ _ => off

/-- The width of an access. -/
def Access.size : Access → AccessSize
  | .read _ n => n
  | .write _ n _ => n

/-- The direction of an access. -/
def Access.dir : Access → Dir
  | .read _ _ => .read
  | .write _ _ _ => .write

/-- Every byte of the access is in the window (R80). -/
def Access.inWindow (a : Access) : Bool := decide (a.off + a.size.bytes ≤ Config.windowSize)

/-- The widths and alignments a region serves (R83, R84). -/
def Access.legal (a : Access) : Bool :=
  match regionOf a.off with
  | .registers => a.size == .b4 && a.off % 4 == 0
  | .pbuf => a.off % a.size.bytes == 0
  | .fbuf => a.off % a.size.bytes == 0

/-- The answer to a read: its value, and nothing else but the count of free values (R87). -/
def answerRead (v : Word) (d : Nat) (s : State) : State :=
  { s with draws := d, lastResponse := some (.data v) }

/-- A read of buffer bytes at offset `off` (R85, R89, R91). -/
def readBytes (off : Nat) (srcs : List ByteSource) (s : State) : Host.Outcome State Fault Refusal :=
  match resolve 0 srcs s.draws with
  | .ok (bs, d) => .next (answerRead (assemble bs) d s)
  | .error _ => .fault (.uninitRead off)

/-- A legal read (R87, R89, R91). -/
def hostRead (off : Nat) (n : AccessSize) (s : State) : Host.Outcome State Fault Refusal :=
  match regionOf off with
  | .registers =>
    match regAt off with
    | some r => .next (answerRead (readReg r s).1 (readReg r s).2 s)
    | none => .next (answerRead 0#32 s.draws s)
  | .pbuf => readBytes off ((List.range n.bytes).map (fun j => pbufSource s (off - 0x400 + j))) s
  | .fbuf => readBytes off ((List.range n.bytes).map (fun j => fbufSource s (off - 0x800 + j))) s

/-- A legal write of `PBUF` (R90). -/
def writePbuf (k : Nat) (bs : List Byte) (s : State) : State :=
  if s.busy then blockedWrite s else { s with pbuf := s.pbuf.store k bs }

/-- A legal write (R88, R90, R92). -/
def hostWrite (off : Nat) (n : AccessSize) (v : Word) (s : State) : State :=
  match regionOf off with
  | .registers =>
    match regAt off with
    | some r => writeReg r v s
    | none => s
  | .pbuf => writePbuf (off - 0x400) (laneBytes v n) s
  | .fbuf => s

/-- The acknowledgement of a write. -/
def acknowledge (s : State) : State := { s with lastResponse := some .ack }

/-- One host access. One whose bytes leave the window does not reach the block (R80); one its region does not serve ends
in a bus error (R86). -/
def hostAccess (a : Access) (s : State) : Host.Outcome State Fault Refusal :=
  if !a.inWindow then .next { s with lastResponse := none }
  else if !a.legal then .fault (.busError a.off a.size a.dir)
  else match a with
    | .read off n => hostRead off n s
    | .write off n v => .next (acknowledge (hostWrite off n v s))

/-- `reset()`: every register to its reset value, the latch emptied, and every buffer byte not written since reset. The
steps still to come and the count of free values are the model's own and stay (R280, R281). -/
def resetBlock (s : State) : State :=
  { State.reset with schedule := s.schedule, draws := s.draws }

end Sys2Proof.Machine
end

