-- ==== Sys2Proof/Syntax.lean ====
section
/-! DEFINITION. The commands of the block: one constructor per row of the opcode map (`30_encoding.md` R114). -/

namespace Sys2Proof

/-- A command as the assembler writes it (R117). `CALC_BYTE` alone carries an immediate, a number from 0 to 255. -/
inductive Instr where
  /-- `NOP` (R144) -/
  | nop
  /-- `CALC_INIT` (R176) -/
  | calcInit
  /-- `CALC_BYTE imm` (R178) -/
  | calcByte (imm : Nat)
  /-- `CALC_BUF` (R180) -/
  | calcBuf
  /-- `FRAME` (R200) -/
  | frame
  /-- `FRAME_YHDR` (R210) -/
  | frameYhdr
  /-- `SEQ_INC` (R220) -/
  | seqInc
deriving DecidableEq, Repr

end Sys2Proof
end

