-- ==== Sys2Proof/WellFormed.lean ====
section
/-! DEFINITION. Which commands are well formed: the immediate of `CALC_BYTE` is from 0 to 255, and one outside
that range is an assembly error (`30_encoding.md` R117). -/

namespace Sys2Proof

/-- The check of R117. -/
def Instr.wellFormed : Instr → Bool
  | .nop => true
  | .calcInit => true
  | .calcByte imm => decide (imm ≤ 255)
  | .calcBuf => true
  | .frame => true
  | .frameYhdr => true
  | .seqInc => true

/-- `i` is a command the assembler accepts (R117). -/
abbrev Instr.WellFormed (i : Instr) : Prop := i.wellFormed = true

end Sys2Proof
end

