-- ==== Sys2Proof/Decode.lean ====
section
/-! DEFINITION. The decoder of a command word, total on every 32-bit word (`30_encoding.md` R115), and the
encoder (R114, R117). -/

namespace Sys2Proof

/-- `OPCODE`, bits [7:0] of a command word (R110). -/
def opcodeOf (w : Word) : BitVec 8 := w.extractLsb' 0 8

/-- `IMM8`, bits [15:8] of a command word (R110, R112). -/
def imm8Of (w : Word) : BitVec 8 := w.extractLsb' 8 8

/-- `RSVD`, bits [31:16] of a command word (R110). -/
def rsvdOf (w : Word) : BitVec 16 := w.extractLsb' 16 16

/-- The command whose opcode is `op`, among those without an immediate; `none` for 0x02, which has one, and for the
reserved opcodes 0x07 to 0xFF (R114, R115). -/
def decodeOpcode (op : BitVec 8) : Option Instr :=
  if op = 0x00#8 then some .nop
  else if op = 0x01#8 then some .calcInit
  else if op = 0x03#8 then some .calcBuf
  else if op = 0x04#8 then some .frame
  else if op = 0x05#8 then some .frameYhdr
  else if op = 0x06#8 then some .seqInc
  else none

/-- `decode(w)`; `none` is the spec's `Illegal` (R115, R116). -/
def decode (w : Word) : Option Instr :=
  if rsvdOf w ≠ 0#16 then none
  else if opcodeOf w = 0x02#8 then some (.calcByte (imm8Of w).toNat)
  else if imm8Of w ≠ 0#8 then none
  else decodeOpcode (opcodeOf w)

/-- The opcode of a command (R114). -/
def Instr.opcode : Instr → BitVec 8
  | .nop => 0x00#8
  | .calcInit => 0x01#8
  | .calcByte _ => 0x02#8
  | .calcBuf => 0x03#8
  | .frame => 0x04#8
  | .frameYhdr => 0x05#8
  | .seqInc => 0x06#8

/-- The `IMM8` field a command is assembled with: 0 but for `CALC_BYTE` (R110, R112). -/
def Instr.imm8 : Instr → BitVec 8
  | .nop => 0#8
  | .calcInit => 0#8
  | .calcByte imm => BitVec.ofNat 8 imm
  | .calcBuf => 0#8
  | .frame => 0#8
  | .frameYhdr => 0#8
  | .seqInc => 0#8

/-- The word of a command: `RSVD` = 0, then `IMM8`, then `OPCODE` (R110, R114). -/
def encode (i : Instr) : Word := placeField i.opcode 0 ||| placeField i.imm8 8

/-- The command read from an instruction of `nbits` bits whose bits are `w`. A command is one 32-bit word, and every
bit above `nbits` is 0 (R111). -/
def decodeTableWord (nbits w : Nat) : Option Instr := decode (BitVec.ofNat 32 (w % 2 ^ nbits))

end Sys2Proof
end

