-- ==== Sys2Proof/Machine/Control.lean ====
section
/-! DEFINITION. The control commands: `NOP`, and what an illegal word does (`40_command_control.md` R144, R145). -/

namespace Sys2Proof.Machine

/-- `NOP` (R144). -/
def execNop (s : State) : Host.Outcome State Fault Refusal := .next (complete s)

/-- The performance of a word that decodes to `Illegal` (R145). -/
def execIllegal (s : State) : Host.Outcome State Fault Refusal := .next (errorComplete .illegalCmd s)

end Sys2Proof.Machine
end

