-- ==== Sys2Proof/Machine/Engine.lean ====
section
/-! DEFINITION. The engine commands `CALC_INIT`, `CALC_BYTE` and `CALC_BUF` (`41_crc_checksum.md` section 2). -/

namespace Sys2Proof.Machine

/-- `feed(b)`: one byte into both accumulators (section 2). -/
def feed (s : State) (b : Byte) : State :=
  { s with
    crcAcc := crcStep s.crcAcc b s.width s.crcPoly s.crcRefin
    sumAcc := s.sumAcc + b }

/-- The bytes fed in index order (R180). -/
def feedAll (bs : List Byte) (s : State) : State := bs.foldl feed s

/-- `CALC_INIT` (R176). -/
def execCalcInit (s : State) : Host.Outcome State Fault Refusal :=
  .next (complete { s with crcAcc := s.crcInit &&& mask s.width, sumAcc := 0#8 })

/-- `CALC_BYTE imm` (R178); the byte is the `IMM8` field the command is assembled with (R112). -/
def execCalcByte (imm : Nat) (s : State) : Host.Outcome State Fault Refusal :=
  .next (complete (feed s (BitVec.ofNat 8 imm)))

/-- `CALC_BUF` (R180). -/
def execCalcBuf (s : State) : Host.Outcome State Fault Refusal :=
  if Config.pbufSize < s.len.toNat then .next (errorComplete .lengthRange s)
  else match loadPbuf s.len.toNat s with
    | .ok (bs, d) => .next (complete (feedAll bs { s with draws := d }))
    | .error i => .fault (.uninitOperand i)

end Sys2Proof.Machine
end

