-- ==== Sys2Proof/Machine/Framer.lean ====
section
/-! DEFINITION. The packet framer: `build_frame`, the writing of `FBUF`, and the commands `FRAME`, `FRAME_YHDR` and
`SEQ_INC` (`42_framer.md`). -/

namespace Sys2Proof.Machine

/-- The three header bytes (R201, R204). -/
def frameHeader (t : PacketType) (seq : Byte) : List Byte := [t.byte, seq, 255#8 - seq]

/-- The padded payload: the data, zero-filled to the capacity (R201, R206). -/
def paddedPayload (t : PacketType) (data : List Byte) : List Byte := data ++ zeros (t.cap - data.length)

/-- The trailer of a padded payload: `sum8`, or `crc16x` in big-endian order (R201, R206). -/
def trailerBytes (tr : Trailer) (payload : List Byte) : List Byte :=
  match tr with
  | .checksum => [sum8 payload]
  | .crc => [(crc16x payload).extractLsb' 8 8, (crc16x payload).extractLsb' 0 8]

/-- `build_frame(typ, seq, data, scheme)` (R201). -/
def buildFrame (t : PacketType) (seq : Byte) (data : List Byte) (tr : Trailer) : List Byte :=
  frameHeader t seq ++ paddedPayload t data ++ trailerBytes tr (paddedPayload t data)

/-- Writing the frame: `FBUF` holds its bytes and then zeros to index 1028, and `FRAME_LEN` its length (R205). -/
def writeFrame (f : List Byte) (s : State) : State :=
  { s with
    fbuf := Memory.listed 0 (f ++ zeros (Config.fbufSize - f.length))
    frameLen := BitVec.ofNat 11 f.length }

/-- `FRAME` (R200, R202, R203). -/
def execFrame (s : State) : Host.Outcome State Fault Refusal :=
  match s.frameScheme.trailer? with
  | none => .next (errorComplete .badScheme s)
  | some tr =>
    if s.frameType.cap < s.len.toNat then .next (errorComplete .payloadTooLarge s)
    else match loadPbuf s.len.toNat s with
      | .ok (data, d) => .next (complete (writeFrame (buildFrame s.frameType s.seq data tr) { s with draws := d }))
      | .error i => .fault (.uninitOperand i)

/-- The payload of a header packet with a filename: the name, one zero byte, the size digits (R210, R212). -/
def headerData (name : List Byte) (size : Word) : List Byte := name ++ [0#8] ++ dec size

/-- `FRAME_YHDR` (R210, R213); an empty filename gives the end-of-batch packet. -/
def execFrameYhdr (s : State) : Host.Outcome State Fault Refusal :=
  match s.frameScheme.trailer? with
  | none => .next (errorComplete .badScheme s)
  | some tr =>
    if s.len = 0#16 then .next (complete (writeFrame (buildFrame .stx 0#8 (zeros Config.capStx) tr) s))
    else if Config.capStx < s.len.toNat + 1 + (dec s.fileSize).length then .next (errorComplete .payloadTooLarge s)
    else match loadPbuf s.len.toNat s with
      | .ok (name, d) =>
        .next (complete (writeFrame (buildFrame .stx 0#8 (headerData name s.fileSize) tr) { s with draws := d }))
      | .error i => .fault (.uninitOperand i)

/-- `SEQ_INC` (R220). -/
def execSeqInc (s : State) : Host.Outcome State Fault Refusal :=
  .next (complete { s with seq := s.seq + 1#8 })

end Sys2Proof.Machine
end

