-- ==== Sys2Proof/Machine/Dispatch.lean ====
section
/-! DEFINITION. The performance of a command, one arm per row of the opcode map (`40_command_control.md` R142). -/

namespace Sys2Proof.Machine

def exec (i : Instr) (s : State) : Host.Outcome State Fault Refusal :=
  match i with
  | .nop => Sys2Proof.Machine.execNop s
  | .calcInit => Sys2Proof.Machine.execCalcInit s
  | .calcByte imm => Sys2Proof.Machine.execCalcByte imm s
  | .calcBuf => Sys2Proof.Machine.execCalcBuf s
  | .frame => Sys2Proof.Machine.execFrame s
  | .frameYhdr => Sys2Proof.Machine.execFrameYhdr s
  | .seqInc => Sys2Proof.Machine.execSeqInc s

end Sys2Proof.Machine
end

