-- ==== Sys2Proof/Machine/Perform.lean ====
section
/-! DEFINITION. The engine's performance of the pending word, and one step of whichever agent is next
(`40_command_control.md` R142, R147; `20_memory.md` R97). -/

namespace Sys2Proof.Machine

/-- The engine performs the command word `w`: it decodes it and executes it, or completes with `ILLEGAL_CMD` (R142). -/
def performWord (w : Word) (s : State) : Host.Outcome State Fault Refusal :=
  match decode w with
  | some i => exec i s
  | none => execIllegal s

/-- The engine's step, enabled only while a command is pending (R142, R147); otherwise nothing happens. -/
def engineStep (s : State) : Host.Outcome State Fault Refusal :=
  match s.pending with
  | some w => performWord w s
  | none => .next s

/-- One step of the agent that `e` names (R97). -/
def eventStep (e : Event) (s : State) : Host.Outcome State Fault Refusal :=
  match e with
  | .access a => hostAccess a s
  | .perform => engineStep s
  | .reset => .next (resetBlock s)

/-- The state with the steps `rest` still to come. -/
def withSchedule (rest : List Event) (s : State) : State := { s with schedule := rest }

/-- The next step of the total order. With no step left to come, the engine, if a command is pending, takes its own:
a pending command is always performed in the end (R97, R147). -/
def nextStep (s : State) : Host.Outcome State Fault Refusal :=
  match s.schedule with
  | [] => engineStep s
  | e :: rest => eventStep e (withSchedule rest s)

/-- The performances of a list of commands one after the other, each issued once the one before it has completed. -/
def execAll : List Instr → State → Host.Outcome State Fault Refusal
  | [], s => .next s
  | i :: is, s =>
    match exec i s with
    | .next t => execAll is t
    | .fault f => .fault f
    | .refused r => .refused r

end Sys2Proof.Machine
end

