-- ==== Sys2Proof/Machine/Step.lean ====
section
/-! DEFINITION. One step of the machine, and how the host's word reaches the engine. -/

namespace Sys2Proof.Machine

/-- One step of the one totally ordered sequence of steps (R97). -/
def step (s : State) : Host.Outcome State Fault Refusal := nextStep s

/-- The state in which the word has just been issued and the engine's performance is the very next step. The block
fetches nothing (R55): the latch holds the word (R52), and the schedule names the engine next (log entry 4). -/
def State.withFetchWord (s : State) (nbits w : Nat) : State :=
  { s with pending := some (BitVec.ofNat 32 (w % 2 ^ nbits)), schedule := .perform :: s.schedule }

end Sys2Proof.Machine
end

