-- ==== Sys2Proof/Machine/HostProgram.lean ====
section
/-! DEFINITION. The host's side: the bus lines and pseudo-instructions of `30_encoding.md` R118 and R119 as steps of the
schedule, and the host's duties (`70_reset_and_hazards.md` R297 to R300). The rules of the block do not
depend on this file. -/

namespace Sys2Proof.Machine

/-- The offset `PBUF+k` (R118). -/
def pbufOffset (k : Nat) : Nat := 0x400 + k

/-- The offset `FBUF+k` (R118). -/
def fbufOffset (k : Nat) : Nat := 0x800 + k

/-- `W8 off, v` (R118). -/
def w8 (off : Nat) (v : Byte) : Event := .access (.write off .b1 (v.setWidth 32))

/-- `W16 off, v` (R118). -/
def w16 (off : Nat) (v : BitVec 16) : Event := .access (.write off .b2 (v.setWidth 32))

/-- `W32 off, v` (R118). -/
def w32 (off : Nat) (v : Word) : Event := .access (.write off .b4 v)

/-- `R8 off` (R118). -/
def r8 (off : Nat) : Event := .access (.read off .b1)

/-- `R16 off` (R118). -/
def r16 (off : Nat) : Event := .access (.read off .b2)

/-- `R32 off` (R118). -/
def r32 (off : Nat) : Event := .access (.read off .b4)

/-- `ISSUE cmd` (R119). -/
def issue (i : Instr) : List Event := [w32 Reg.cmd.offset (encode i)]

/-- `WAIT` as the host runs it: `before` reads of `STATUS` that find `BUSY` = 1, the performance, and the read that finds
`BUSY` = 0 (R119). -/
def waitLoop (before : Nat) : List Event :=
  List.replicate before (r32 Reg.status.offset) ++ [.perform, r32 Reg.status.offset]

/-- `RUN cmd`: `ISSUE` and then `WAIT` (R119). -/
def runCommand (i : Instr) (before : Nat) : List Event := issue i ++ waitLoop before

/-- `CLRST` (R119). -/
def clrst : List Event := [w32 Reg.status.offset 0x00000006#32]

/-- `PUTB k, "text"` (R119). -/
def putb (k : Nat) : List Byte → List Event
  | [] => []
  | b :: bs => w8 (pbufOffset k) b :: putb (k + 1) bs

/-- `SETCRC w, poly, init, xorout, refin, refout` (R119). -/
def setcrc (w : BitVec 6) (poly init xorout : Word) (refin refout : Bool) : List Event :=
  [w32 Reg.crcPoly.offset poly, w32 Reg.crcInit.offset init, w32 Reg.crcXorout.offset xorout,
   w32 Reg.crcCfg.offset (placeField w 0 ||| placeBit refin 8 ||| placeBit refout 9)]

/-- `SETFRAME type, scheme` (R119). -/
def setframe (t : PacketType) (c : Scheme) : List Event :=
  [w32 Reg.frameCfg.offset (placeBit t.bit 0 ||| placeField c.bits 4)]

/-- The reads of the packet in `FBUF`, of length `n`, in the order the host sends its bytes (R95, R300). -/
def sendFrame (n : Nat) : List Event := (List.range n).map (fun k => r8 (fbufOffset k))

/-- The scheme a negotiation byte selects: NAK the checksum, 'C' the CRC, any other byte none (R125, R299). -/
def negotiatedScheme (b : Byte) : Option Scheme :=
  if b = 0x15#8 then some .additive
  else if b = 0x43#8 then some .crc16
  else none

/-- The sequence number of the `n`-th data packet: `n mod 256` (R297). -/
def packetSeq (n : Nat) : Byte := BitVec.ofNat 8 n

/-- The number of data packets for a source of `total` bytes: `ceil(T / cap)` (R298). -/
def packetCount (total cap : Nat) : Nat := (total + cap - 1) / cap

/-- The `LEN` of data packet `k`, counted from 1 (R298). -/
def packetLen (total cap k : Nat) : Nat := min (k * cap) total - (k - 1) * cap

end Sys2Proof.Machine
end

