-- ==== Sys2Proof/Safety.lean ====
section
/-! DEFINITION. What counts as a safe run, in the terms claims use: the invariants of the state, the packet `FBUF`
holds, and the end of a run (`70_reset_and_hazards.md` R301). -/

namespace Sys2Proof.Machine

/-- `f` is a packet: header, padded payload of the exact capacity, trailer over it (R126, R201). -/
def IsPacket (f : List Byte) : Prop :=
  ∃ t seq payload tr, payload.length = PacketType.cap t ∧
    f = frameHeader t seq ++ payload ++ trailerBytes tr payload

/-- `FBUF` holds nothing and `FRAME_LEN` is 0; or it holds one packet and then zeros, and `FRAME_LEN` is the packet's
length (R47, R51, R205). -/
def FbufHoldsPacket (s : State) : Prop :=
  (s.frameLen = 0#11 ∧ s.fbuf = []) ∨
  ∃ f, IsPacket f ∧ s.frameLen.toNat = f.length ∧ s.fbuf = Memory.listed 0 (f ++ zeros (Config.fbufSize - f.length))

/-- The register fields keep to their legal values: `WIDTH` is 1 to 32 (R40), and `ERRCODE` is 0 exactly while `ERR` is
0 (R33, R241). -/
def FieldsLegal (s : State) : Prop :=
  1 ≤ s.width ∧ s.width ≤ Config.crcWmax ∧ (s.err = false ↔ s.errCode = ErrCode.none)

/-- Both buffers are in canonical form and inside their sizes (R50, R51). -/
def BuffersCanonical (s : State) : Prop :=
  Memory.wf s.pbuf ∧ Memory.within s.pbuf Config.pbufSize ∧ Memory.wf s.fbuf ∧ Memory.within s.fbuf Config.fbufSize

/-- The first `n` bytes of `PBUF` have been written since reset, so that reading them needs no free value (R150). -/
def PbufWritten (n : Nat) (s : State) : Prop := ∀ k < n, (s.pbuf.read k).isSome = true

/-- `PBUF[0], …, PBUF[n−1]`, where they have been written. -/
def pbufBytes (n : Nat) (s : State) : List Byte := (List.range n).map (fun k => (s.pbuf.read k).getD 0#8)

/-- How many of the first `n` bytes of a read have not been written since reset, where `byte j` is the `j`-th one. -/
def unwrittenBelow (byte : Nat → Option Byte) (n : Nat) : Nat :=
  ((List.range n).filter (fun i => (byte i).isNone)).length

/-- The bus value whose byte `j` is `f j`, for `j` below `n`: the lowest offset in the low bits (R85). -/
def busValue (n : Nat) (f : Nat → Byte) : Word :=
  BitVec.ofNat 32 ((List.range n).map (fun j => (f j).toNat * 256 ^ j)).sum

/-- The end of a run: every step has been taken and no command is pending (R301). -/
def Final (s : State) : Prop := s.schedule = [] ∧ s.pending = none

/-- `t` is reached from `s` by `n` steps, none of which stops in a fault (R246). -/
def Reaches (n : Nat) (s t : State) : Prop := Sys2Proof.core.run n s = Host.Outcome.next t

end Sys2Proof.Machine
end

