-- ==== Sys2Proof/Certificates/Slice0/Obligations.lean ====
section
/-! DEFINITION. The statements about the block, each citing the rule of the spec it formalises. Nothing is proved here. -/

open Sys2Proof Sys2Proof.Machine

/-! ### Encoding -/

/-- R114: each word of the opcode map decodes to its command, with every immediate, and the opcodes 0x07 to 0xFF to none. -/
def Obligations.OpcodeMapDecodes : Prop :=
  decode 0x00000000#32 = some .nop ∧
  decode 0x00000001#32 = some .calcInit ∧
  (∀ b : Byte, decode (BitVec.ofNat 32 (b.toNat * 2 ^ 8 + 0x02)) = some (.calcByte b.toNat)) ∧
  decode 0x00000003#32 = some .calcBuf ∧
  decode 0x00000004#32 = some .frame ∧
  decode 0x00000005#32 = some .frameYhdr ∧
  decode 0x00000006#32 = some .seqInc ∧
  ∀ w : Word, 0x07 ≤ w.toNat % 256 → decode w = none

/-- R114, R115, R117: a word decodes to a command exactly when the command is well formed and assembles to that word. -/
def Obligations.DecodeInvertsEncode : Prop :=
  ∀ (w : Word) (i : Instr), decode w = some i ↔ (i.WellFormed ∧ encode i = w)

/-- R116: which words are illegal; each is accepted as pending, and its performance changes only `STATUS`, with
`ILLEGAL_CMD`. -/
def Obligations.IllegalWordsCompleteWithIllegalCmd : Prop :=
  ∀ w : Word,
    (decode w = none ↔
      (w.toNat / 2 ^ 16 ≠ 0 ∨ 0x07 ≤ w.toNat % 256 ∨ (w.toNat % 256 ≠ 0x02 ∧ w.toNat / 256 % 256 ≠ 0))) ∧
    (decode w = none → ∀ s : State,
      (s.pending = none →
        hostAccess (.write 0x00C .b4 w) s = .next { s with pending := some w, lastResponse := some .ack }) ∧
      performWord w s = .next { s with
        pending := none
        done := true
        err := true
        errCode := if s.err then s.errCode else .illegalCmd })

/-! ### The step -/

/-- R142: when the latch holds the word of a command and the engine is next, the step is `exec` of that command, and the
schedule moves on; so it is after a word has been placed by `withFetchWord`. -/
def Obligations.StepRunsDecodedCommand : Prop :=
  ∀ (s : State) (w : Word) (i : Instr), decode w = some i →
    (s.pending = some w → s.schedule = [] → step s = exec i s) ∧
    (∀ rest, s.pending = some w → s.schedule = .perform :: rest → step s = exec i { s with schedule := rest }) ∧
    step (s.withFetchWord 32 w.toNat) = exec i { s with pending := some w }

/-- R97: every step is one host access, one performance or a reset, as the schedule orders them; the engine has no step
while nothing is pending. The schedule, and the state staying as it is when no step is left, are the model's own
(log entries 1 and 5). -/
def Obligations.StepTakesTheScheduledAgent : Prop :=
  ∀ (s : State) (rest : List Event),
    (∀ a, s.schedule = .access a :: rest → step s = hostAccess a { s with schedule := rest }) ∧
    (s.schedule = .reset :: rest → step s = .next (resetBlock { s with schedule := rest })) ∧
    (s.schedule = .perform :: rest → s.pending = none → step s = .next { s with schedule := rest }) ∧
    (s.schedule = [] → s.pending = none → step s = .next s)

/-! ### Reset -/

/-- R59: what a reset leaves, from any state: every register at its reset value, the latch empty, no buffer byte written,
`irq` low; a `FRAME` before the host sets a scheme reports `BAD_SCHEME`. -/
def Obligations.ResetRestoresEveryRegister : Prop :=
  ∀ s : State,
    (∀ r, regValue r (resetBlock s) =
      match r with
      | .id => 0x58590100#32
      | .ctrl => 0#32
      | .status => 0#32
      | .cmd => 0#32
      | .crcPoly => 0x00001021#32
      | .crcInit => 0#32
      | .crcXorout => 0#32
      | .crcCfg => 0x00000010#32
      | .crcAcc => 0#32
      | .crcResult => 0#32
      | .sumAcc => 0#32
      | .len => 0#32
      | .seq => 0#32
      | .frameCfg => 0#32
      | .frameLen => 0#32
      | .fileSize => 0#32) ∧
    (resetBlock s).pending = none ∧
    (∀ k, (resetBlock s).pbuf.read k = none ∧ (resetBlock s).fbuf.read k = none) ∧
    irq (resetBlock s) = false ∧
    exec .frame (resetBlock s) =
      .next { resetBlock s with done := true, err := true, errCode := .badScheme }

/-- R281: a command in flight at a reset leaves no trace. Any two states with the same steps to come and the same count of
free values are the same after the reset. -/
def Obligations.ResetForgetsTheCommandInFlight : Prop :=
  ∀ (s s' : State) (rest : List Event), ∃ t,
    step { s with schedule := .reset :: rest } = .next t ∧
    step { s' with schedule := .reset :: rest, draws := s.draws } = .next t ∧
    t.pending = none ∧ t.done = false ∧ t.err = false ∧ t.errCode = ErrCode.none

/-- R59: the state right after reset meets the invariants of the three statements that follow. -/
def Obligations.ResetMeetsTheInvariants : Prop :=
  BuffersCanonical State.reset ∧ FieldsLegal State.reset ∧ FbufHoldsPacket State.reset

/-! ### Invariants of every step -/

/-- R50, R51: every step keeps both buffers in canonical form and inside their sizes. -/
def Obligations.StepKeepsBuffersCanonical : Prop :=
  ∀ s t : State, BuffersCanonical s → step s = .next t → BuffersCanonical t

/-- R40, R33: every step keeps `WIDTH` between 1 and 32, and `ERRCODE` 0 exactly while `ERR` is 0. -/
def Obligations.StepKeepsFieldsLegal : Prop :=
  ∀ s t : State, FieldsLegal s → step s = .next t → FieldsLegal t

/-- R205, R47, R126: after every step `FBUF` holds nothing, or one whole packet with a right trailer, then zeros, and
`FRAME_LEN` is its length. -/
def Obligations.StepKeepsPacketInFbuf : Prop :=
  ∀ s t : State, FbufHoldsPacket s → step s = .next t → FbufHoldsPacket t

/-- R147: a pending command is performed after no more steps than the schedule holds, unless a reset abandons it or a fault
of the model stops the run first. That the schedule is finite is the model's form of weak fairness (log entry 1). -/
def Obligations.PendingCommandIsPerformed : Prop :=
  ∀ (s : State) (w : Word), s.pending = some w →
    ∃ k u, k ≤ s.schedule.length ∧ Reaches k s u ∧ u.pending = some w ∧
      (step u = performWord w { u with schedule := u.schedule.tail } ∨
        (∃ rest, u.schedule = .reset :: rest) ∨
        ∃ f, step u = .fault f)

/-- R142, R52, R281: a pending command stays pending until it is performed, which sets `DONE`, or a reset abandons it. -/
def Obligations.BusyEndsOnlyByPerformanceOrReset : Prop :=
  ∀ (s t : State) (w : Word), s.pending = some w → step s = .next t →
    t.pending = some w ∨
    (t.pending = none ∧ t.done = true ∧
      ∃ rest, (s.schedule = [] ∧ rest = [] ∨ s.schedule = .perform :: rest) ∧
        performWord w { s with schedule := rest } = .next t) ∨
    (t.pending = none ∧ t.done = false ∧ ∃ rest, s.schedule = .reset :: rest)

/-! ### The commands -/

/-- R144, R143: `NOP` clears `BUSY` and sets `DONE`, and changes nothing else. -/
def Obligations.NopOnlyCompletes : Prop :=
  ∀ s : State, exec .nop s = .next { s with pending := none, done := true }

/-- R176: `CALC_INIT` loads `CRC_INIT` modulo `2^W` and clears `SUM_ACC`, and changes nothing else but the completion. -/
def Obligations.CalcInitLoadsMaskedInit : Prop :=
  ∀ s : State, exec .calcInit s = .next { s with
    crcAcc := BitVec.ofNat 32 (s.crcInit.toNat % 2 ^ s.crcWidth.toNat)
    sumAcc := 0#8
    pending := none
    done := true }

/-- R178: `CALC_BYTE imm` feeds its byte to both accumulators, and changes nothing else but the completion. -/
def Obligations.CalcByteFeedsItsByte : Prop :=
  ∀ (s : State) (imm : Nat), imm ≤ 255 → exec (.calcByte imm) s = .next { s with
    crcAcc := crcStep s.crcAcc (BitVec.ofNat 8 imm) s.crcWidth.toNat s.crcPoly s.crcRefin
    sumAcc := BitVec.ofNat 8 ((s.sumAcc.toNat + imm) % 256)
    pending := none
    done := true }

/-- R180: `CALC_BUF` feeds the `LEN` bytes of `PBUF` in index order, and changes nothing else but the completion. -/
def Obligations.CalcBufFeedsLenBytes : Prop :=
  ∀ s : State, s.len.toNat ≤ 1024 → PbufWritten s.len.toNat s → exec .calcBuf s = .next { s with
    crcAcc := (pbufBytes s.len.toNat s).foldl
      (fun a b => crcStep a b s.crcWidth.toNat s.crcPoly s.crcRefin) s.crcAcc
    sumAcc := BitVec.ofNat 8 ((s.sumAcc.toNat + ((pbufBytes s.len.toNat s).map BitVec.toNat).sum) % 256)
    pending := none
    done := true }

/-- R200, R201, R205, R206: `FRAME` writes the packet to `FBUF` byte by byte: type, sequence number, its complement, the
payload padded with zeros to the capacity, the trailer over the padded payload, then zeros to index 1028. Nothing else
changes but `FRAME_LEN` and the completion. -/
def Obligations.FrameBuildsThePacket : Prop :=
  ∀ s : State, (s.frameScheme = .additive ∨ s.frameScheme = .crc16) →
    s.len.toNat ≤ (if s.frameType = .soh then 128 else 1024) → PbufWritten s.len.toNat s →
    ∃ t cap p, cap = (if s.frameType = .soh then 128 else 1024) ∧
      p = pbufBytes s.len.toNat s ++ zeros (cap - s.len.toNat) ∧
      exec .frame s = .next t ∧
      t = { s with fbuf := t.fbuf, frameLen := t.frameLen, pending := none, done := true } ∧
      t.fbuf.read 0 = some (if s.frameType = .soh then 0x01#8 else 0x02#8) ∧
      t.fbuf.read 1 = some s.seq ∧
      t.fbuf.read 2 = some (255#8 - s.seq) ∧
      (∀ k < cap, t.fbuf.read (3 + k) = if k < s.len.toNat then s.pbuf.read k else some 0#8) ∧
      (s.frameScheme = .additive → t.frameLen.toNat = 3 + cap + 1 ∧ t.fbuf.read (3 + cap) = some (sum8 p)) ∧
      (s.frameScheme = .crc16 → t.frameLen.toNat = 3 + cap + 2 ∧
        t.fbuf.read (3 + cap) = some ((crc16x p).extractLsb' 8 8) ∧
        t.fbuf.read (3 + cap + 1) = some ((crc16x p).extractLsb' 0 8)) ∧
      (∀ k, t.frameLen.toNat ≤ k → k ≤ 1028 → t.fbuf.read k = some 0#8)

/-- R210, R212, R127: `FRAME_YHDR` with a filename of `L` bytes writes an STX packet with sequence number 0 whose payload
is the filename, one zero byte, the decimal digits of `FILE_SIZE`, and zeros. Nothing else changes but `FRAME_LEN` and the
completion. -/
def Obligations.HeaderPacketHoldsNameAndSize : Prop :=
  ∀ s : State, (s.frameScheme = .additive ∨ s.frameScheme = .crc16) → s.len ≠ 0#16 →
    s.len.toNat + 1 + (dec s.fileSize).length ≤ 1024 → PbufWritten s.len.toNat s →
    ∃ t p, p = pbufBytes s.len.toNat s ++ [0x00#8] ++ dec s.fileSize ++
        zeros (1024 - (s.len.toNat + 1 + (dec s.fileSize).length)) ∧
      exec .frameYhdr s = .next t ∧
      t = { s with fbuf := t.fbuf, frameLen := t.frameLen, pending := none, done := true } ∧
      t.fbuf.read 0 = some 0x02#8 ∧ t.fbuf.read 1 = some 0x00#8 ∧ t.fbuf.read 2 = some 0xFF#8 ∧
      (∀ k < s.len.toNat, t.fbuf.read (3 + k) = s.pbuf.read k) ∧
      t.fbuf.read (3 + s.len.toNat) = some 0x00#8 ∧
      (∀ k < (dec s.fileSize).length, t.fbuf.read (3 + s.len.toNat + 1 + k) = (dec s.fileSize)[k]?) ∧
      (∀ k, s.len.toNat + 1 + (dec s.fileSize).length ≤ k → k < 1024 → t.fbuf.read (3 + k) = some 0x00#8) ∧
      (s.frameScheme = .additive → t.frameLen.toNat = 1028 ∧ t.fbuf.read 1027 = some (sum8 p) ∧
        t.fbuf.read 1028 = some 0x00#8) ∧
      (s.frameScheme = .crc16 → t.frameLen.toNat = 1029 ∧
        t.fbuf.read 1027 = some ((crc16x p).extractLsb' 8 8) ∧
        t.fbuf.read 1028 = some ((crc16x p).extractLsb' 0 8))

/-- R210, R182: `FRAME_YHDR` with `LEN` = 0 writes the end-of-batch packet, whatever `PBUF` and `FILE_SIZE` hold: STX,
sequence number 0, and zeros, its trailer being zero. -/
def Obligations.FooterPacketIsZero : Prop :=
  ∀ s : State, (s.frameScheme = .additive ∨ s.frameScheme = .crc16) → s.len = 0#16 →
    ∃ t, exec .frameYhdr s = .next t ∧
      t = { s with fbuf := t.fbuf, frameLen := t.frameLen, pending := none, done := true } ∧
      t.frameLen = (if s.frameScheme = .additive then 1028#11 else 1029#11) ∧
      t.fbuf.read 0 = some 0x02#8 ∧ t.fbuf.read 1 = some 0x00#8 ∧ t.fbuf.read 2 = some 0xFF#8 ∧
      ∀ k, 3 ≤ k → k ≤ 1028 → t.fbuf.read k = some 0x00#8

/-- R220: `SEQ_INC` adds 1 to `SEQ` modulo 256, and changes nothing else but the completion. -/
def Obligations.SeqIncAddsOneModulo256 : Prop :=
  ∀ s : State, exec .seqInc s = .next { s with
    seq := BitVec.ofNat 8 ((s.seq.toNat + 1) % 256)
    pending := none
    done := true }

/-- R220, V25: `n` times `SEQ_INC` adds `n` modulo 256, so 256 of them bring `SEQ` back; nothing else changes but the
completion. -/
def Obligations.RepeatedSeqIncWraps : Prop :=
  ∀ (s : State) (n : Nat), 1 ≤ n → execAll (List.replicate n .seqInc) s = .next { s with
    seq := BitVec.ofNat 8 ((s.seq.toNat + n) % 256)
    pending := none
    done := true }

/-- R247: the checks of a command in their order, each failing one an error completion that changes only `STATUS`; no check
looks at a `PBUF` byte. -/
def Obligations.CommandChecksInOrder : Prop :=
  ∀ (s : State) (w : Word),
    let fail (c : ErrCode) : Host.Outcome State Fault Refusal := .next { s with
      pending := none, done := true, err := true, errCode := if s.err then s.errCode else c }
    (decode w = none → performWord w s = fail .illegalCmd) ∧
    ((s.frameScheme = .none ∨ s.frameScheme = .reserved) →
      exec .frame s = fail .badScheme ∧ exec .frameYhdr s = fail .badScheme) ∧
    ((s.frameScheme = .additive ∨ s.frameScheme = .crc16) →
      ((if s.frameType = .soh then 128 else 1024) < s.len.toNat → exec .frame s = fail .payloadTooLarge) ∧
      (s.len ≠ 0#16 → 1024 < s.len.toNat + 1 + (dec s.fileSize).length →
        exec .frameYhdr s = fail .payloadTooLarge)) ∧
    (1024 < s.len.toNat → exec .calcBuf s = fail .lengthRange)

/-- R150, R13: a command that reads a `PBUF` byte never written does what `UNINIT_READ` says: with `fault` it stops at the
lowest such index; with `draw` it runs as on a `PBUF` that holds the written bytes and, for each other one, a free value of
its own, drawn in index order. That the fault names the lowest index is the model's choice (log entry 8), and so is the
order of the draws (log entry 2). -/
def Obligations.UnwrittenOperandFollowsUninitRead : Prop :=
  ∀ (s : State) (i : Instr) (k : Nat),
    ((i = .calcBuf ∧ s.len.toNat ≤ 1024) ∨
      ((s.frameScheme = .additive ∨ s.frameScheme = .crc16) ∧
        ((i = .frame ∧ s.len.toNat ≤ s.frameType.cap) ∨
          (i = .frameYhdr ∧ s.len.toNat + 1 + (dec s.fileSize).length ≤ 1024)))) →
    k < s.len.toNat → s.pbuf.read k = none → PbufWritten k s →
    match Config.uninitRead with
    | .fault => exec i s = .fault (.uninitOperand k)
    | .draw => ∃ data t, data.length = s.len.toNat ∧
        (∀ j < s.len.toNat, data[j]? = some
          (match s.pbuf.read j with
          | some b => b
          | none => Config.drawByte (s.draws + unwrittenBelow s.pbuf.read j))) ∧
        exec i { s with pbuf := Memory.listed 0 data } = .next t ∧
        exec i s = .next { t with pbuf := s.pbuf, draws := s.draws + unwrittenBelow s.pbuf.read s.len.toNat }

/-- R207: two framing commands with equal operands, the written bytes `PBUF[0 .. LEN−1]` among them, leave the same packet
and the same length, whatever else differs; or both fail and leave them as they were. `TYPE` and `SEQ` are operands of
`FRAME` alone, and `FILE_SIZE` of `FRAME_YHDR` alone (R113). -/
def Obligations.FramingDependsOnlyOnOperands : Prop :=
  ∀ (s s' : State) (i : Instr), (i = .frame ∨ i = .frameYhdr) →
    (i = .frame → s.frameType = s'.frameType ∧ s.seq = s'.seq) → (i = .frameYhdr → s.fileSize = s'.fileSize) →
    s.frameScheme = s'.frameScheme → s.len = s'.len → (∀ k < s.len.toNat, s.pbuf.read k = s'.pbuf.read k) → PbufWritten s.len.toNat s →
    ∃ t t', exec i s = .next t ∧ exec i s' = .next t' ∧
      ((t.fbuf = t'.fbuf ∧ t.frameLen = t'.frameLen ∧ t.frameLen ≠ 0#11) ∨
        (t.fbuf = s.fbuf ∧ t.frameLen = s.frameLen ∧ t.err = true ∧
          t'.fbuf = s'.fbuf ∧ t'.frameLen = s'.frameLen ∧ t'.err = true))

/-- R113, R50, R208, R221: what a command that completes may change. No command changes `PBUF` or an operand register but
`SEQ_INC` its `SEQ`; only the engine's commands change the accumulators, only the framing commands `FBUF` and `FRAME_LEN`;
a recorded error stays as it is. The free values drawn are the model's own. -/
def Obligations.CommandsWriteOnlyTheirResults : Prop :=
  ∀ (i : Instr) (s t : State), exec i s = .next t →
    t = { s with
      pending := none, done := true, err := t.err, errCode := t.errCode, draws := t.draws, crcAcc := t.crcAcc,
      sumAcc := t.sumAcc, seq := t.seq, fbuf := t.fbuf, frameLen := t.frameLen } ∧
    (i = .nop ∨ i = .frame ∨ i = .frameYhdr ∨ i = .seqInc → t.crcAcc = s.crcAcc ∧ t.sumAcc = s.sumAcc) ∧
    (i ≠ .frame → i ≠ .frameYhdr → t.fbuf = s.fbuf ∧ t.frameLen = s.frameLen) ∧
    (i ≠ .seqInc → t.seq = s.seq) ∧
    (s.err = true → t.err = true ∧ t.errCode = s.errCode)

/-! ### The bus -/

/-- R101, R146: while a command is pending, no host access changes an operand of a command, `PBUF`, result state or the
latch. -/
def Obligations.HostAccessKeepsOperandsWhileBusy : Prop :=
  ∀ (a : Access) (s t : State), s.pending.isSome = true → hostAccess a s = .next t →
    t = { s with
      ieDone := t.ieDone, ieErr := t.ieErr, done := t.done, err := t.err, errCode := t.errCode, draws := t.draws,
      lastResponse := t.lastResponse }

/-- R87: a read has no side effect in any region; the answer and the count of free values are the model's own. -/
def Obligations.ReadsChangeNoState : Prop :=
  ∀ (off : Nat) (n : AccessSize) (s t : State), hostAccess (.read off n) s = .next t →
    t = { s with draws := t.draws, lastResponse := t.lastResponse }

/-- R87, R56: a 32-bit read of a register answers its value, or a fresh free value for result state while `BUSY` = 1. -/
def Obligations.RegisterReadsAnswer : Prop :=
  ∀ (s : State) (r : Reg),
    hostAccess (.read r.offset .b4) s =
      if r ∈ [Reg.crcAcc, .crcResult, .sumAcc, .seq, .frameLen] ∧ s.pending.isSome = true then
        .next { s with draws := s.draws + 1, lastResponse := some (.data (Config.draw s.draws)) }
      else .next { s with lastResponse := some (.data (regValue r s)) }

/-- R31 to R48, R240: the value of each register, as a number made of its fields, and the numbers of the error codes. -/
def Obligations.RegisterValuesFollowFields : Prop :=
  ∀ s : State,
    regValue .id s = 0x58590100#32 ∧
    (regValue .ctrl s).toNat = s.ieDone.toNat + 2 * s.ieErr.toNat ∧
    (regValue .status s).toNat =
      s.pending.isSome.toNat + 2 * s.done.toNat + 4 * s.err.toNat +
        256 * (match s.errCode with
          | .none => 0
          | .payloadTooLarge => 1
          | .illegalCmd => 2
          | .badScheme => 3
          | .lengthRange => 4
          | .busyViolation => 5) ∧
    regValue .cmd s = 0#32 ∧
    regValue .crcPoly s = s.crcPoly ∧ regValue .crcInit s = s.crcInit ∧ regValue .crcXorout s = s.crcXorout ∧
    (regValue .crcCfg s).toNat = s.crcWidth.toNat + 256 * s.crcRefin.toNat + 512 * s.crcRefout.toNat ∧
    regValue .crcAcc s = s.crcAcc ∧
    regValue .crcResult s = crcFinal s.crcAcc s.crcWidth.toNat s.crcRefout s.crcXorout ∧
    (regValue .sumAcc s).toNat = s.sumAcc.toNat ∧
    (regValue .len s).toNat = s.len.toNat ∧
    (regValue .seq s).toNat = s.seq.toNat ∧
    (regValue .frameCfg s).toNat =
      (if s.frameType = .soh then 0 else 1) +
        16 * (match s.frameScheme with | .none => 0 | .additive => 1 | .crc16 => 2 | .reserved => 3) ∧
    (regValue .frameLen s).toNat = s.frameLen.toNat ∧
    regValue .fileSize s = s.fileSize

/-- R88, R36 to R48: a 32-bit write while no command is pending stores the writable fields of an RW register and nothing
else, and an RO register ignores it. -/
def Obligations.RegisterWritesStoreFields : Prop :=
  ∀ (s : State) (v : Word), s.pending = none →
    let wr (r : Reg) : Host.Outcome State Fault Refusal := hostAccess (.write r.offset .b4 v) s
    wr .ctrl = .next { s with
      ieDone := decide (v.toNat % 2 = 1), ieErr := decide (v.toNat / 2 % 2 = 1), lastResponse := some .ack } ∧
    wr .crcPoly = .next { s with crcPoly := v, lastResponse := some .ack } ∧
    wr .crcInit = .next { s with crcInit := v, lastResponse := some .ack } ∧
    wr .crcXorout = .next { s with crcXorout := v, lastResponse := some .ack } ∧
    wr .len = .next { s with len := BitVec.ofNat 16 (v.toNat % 2 ^ 16), lastResponse := some .ack } ∧
    wr .seq = .next { s with seq := BitVec.ofNat 8 (v.toNat % 2 ^ 8), lastResponse := some .ack } ∧
    wr .frameCfg = .next { s with
      frameType := if v.toNat % 2 = 0 then .soh else .stx
      frameScheme :=
        if v.toNat / 16 % 4 = 0 then .none
        else if v.toNat / 16 % 4 = 1 then .additive
        else if v.toNat / 16 % 4 = 2 then .crc16
        else .reserved
      lastResponse := some .ack } ∧
    wr .fileSize = .next { s with fileSize := v, lastResponse := some .ack } ∧
    ∀ r ∈ [Reg.id, .crcAcc, .crcResult, .sumAcc, .frameLen], wr r = .next { s with lastResponse := some .ack }

/-- R40: a write of `CRC_CFG` stores `WIDTH` where its bits [5:0] are 1 to 32 and leaves it otherwise, and stores `REFIN`
and `REFOUT` as written; and `WIDTH` is 1 to 32 after reset and after every step from a state where it was. -/
def Obligations.WidthIsWarl : Prop :=
  (∀ (s : State) (v : Word), s.pending = none →
    hostAccess (.write 0x01C .b4 v) s = .next { s with
      crcWidth :=
        if 1 ≤ v.toNat % 64 ∧ v.toNat % 64 ≤ 32 then BitVec.ofNat 6 (v.toNat % 64) else s.crcWidth
      crcRefin := decide (v.toNat / 256 % 2 = 1)
      crcRefout := decide (v.toNat / 512 % 2 = 1)
      lastResponse := some .ack }) ∧
  (1 ≤ State.reset.crcWidth.toNat ∧ State.reset.crcWidth.toNat ≤ 32) ∧
  ∀ s t : State, 1 ≤ s.crcWidth.toNat ∧ s.crcWidth.toNat ≤ 32 → step s = .next t →
    1 ≤ t.crcWidth.toNat ∧ t.crcWidth.toNat ≤ 32

/-- R146: the writes that are blocked while `BUSY` = 1, which store nothing and record `BUSY_VIOLATION`, and the writes that
never are. -/
def Obligations.BlockedWritesRecordBusyViolation : Prop :=
  ∀ (s : State) (v : Word), s.pending.isSome = true →
    (∀ r ∈ [Reg.cmd, .crcPoly, .crcInit, .crcXorout, .crcCfg, .len, .seq, .frameCfg, .fileSize],
      hostAccess (.write r.offset .b4 v) s = .next { s with
        err := true, errCode := if s.err then s.errCode else .busyViolation, lastResponse := some .ack }) ∧
    (∀ (off : Nat) (n : AccessSize), 0x400 ≤ off → off + n.bytes ≤ 0x800 → off % n.bytes = 0 →
      hostAccess (.write off n v) s = .next { s with
        err := true, errCode := if s.err then s.errCode else .busyViolation, lastResponse := some .ack }) ∧
    hostAccess (.write 0x004 .b4 v) s = .next { s with
      ieDone := v.getLsbD 0, ieErr := v.getLsbD 1, lastResponse := some .ack } ∧
    hostAccess (.write 0x008 .b4 v) s = .next { s with
      done := s.done && !v.getLsbD 1
      err := s.err && !v.getLsbD 2
      errCode := if v.getLsbD 2 then .none else s.errCode
      lastResponse := some .ack } ∧
    (∀ r ∈ [Reg.id, .crcAcc, .crcResult, .sumAcc, .frameLen],
      hostAccess (.write r.offset .b4 v) s = .next { s with lastResponse := some .ack }) ∧
    (∀ off, 0x040 ≤ off → off ≤ 0x3FC → off % 4 = 0 →
      hostAccess (.write off .b4 v) s = .next { s with lastResponse := some .ack }) ∧
    (∀ (off : Nat) (n : AccessSize), 0x800 ≤ off → off + n.bytes ≤ 0x1000 → off % n.bytes = 0 →
      hostAccess (.write off n v) s = .next { s with lastResponse := some .ack })

/-- R49: a reserved offset reads as zero and ignores writes, at any `BUSY` value; so does every reserved bit of a
register. -/
def Obligations.ReservedOffsetsAndBitsAreInert : Prop :=
  (∀ (s : State) (v : Word) (off : Nat), 0x040 ≤ off → off ≤ 0x3FC → off % 4 = 0 →
    hostAccess (.read off .b4) s = .next { s with lastResponse := some (.data 0#32) } ∧
    hostAccess (.write off .b4 v) s = .next { s with lastResponse := some .ack }) ∧
  ∀ (s : State) (v : Word) (r : Reg),
    regValue r s &&& ~~~r.fieldMask = 0#32 ∧ storeReg r v s = storeReg r (v &&& r.fieldMask) s

/-- R85, R90: a write of `n` bytes of `PBUF` while no command is pending stores them lowest offset first and changes no
other byte and nothing else, and a read of the same bytes answers them. -/
def Obligations.PbufWriteThenRead : Prop :=
  ∀ (s : State) (off : Nat) (n : AccessSize) (v : Word), s.pending = none → Memory.wf s.pbuf →
    0x400 ≤ off → off + n.bytes ≤ 0x800 → off % n.bytes = 0 →
    ∃ t, hostAccess (.write off n v) s = .next t ∧
      t = { s with pbuf := t.pbuf, lastResponse := some .ack } ∧
      (∀ k, t.pbuf.read k =
        if off - 0x400 ≤ k ∧ k < off - 0x400 + n.bytes then some (v.extractLsb' (8 * (k - (off - 0x400))) 8)
        else s.pbuf.read k) ∧
      hostAccess (.read off n) t =
        .next { t with lastResponse := some (.data (BitVec.ofNat 32 (v.toNat % 2 ^ (8 * n.bytes)))) }

/-- R89, R85: a legal read of `PBUF` bytes that have been written since reset answers them, at any `BUSY` value and whatever
the width of the writes was, and changes nothing. -/
def Obligations.PbufReadsAnswerWrittenBytes : Prop :=
  ∀ (s : State) (off : Nat) (n : AccessSize), 0x400 ≤ off → off + n.bytes ≤ 0x800 → off % n.bytes = 0 →
    (∀ j < n.bytes, (s.pbuf.read (off - 0x400 + j)).isSome = true) →
    hostAccess (.read off n) s = .next { s with
      lastResponse := some (.data (busValue n.bytes (fun j => (s.pbuf.read (off - 0x400 + j)).getD 0#8))) }

/-- R83, R84: an access inside the window ends in a bus error exactly when its region does not allow its width or its
alignment. -/
def Obligations.BusErrorExactlyWhenIllegal : Prop :=
  ∀ (a : Access) (s : State), a.off + a.size.bytes ≤ 0x1000 →
    (hostAccess a s = .fault (.busError a.off a.size a.dir) ↔
      if a.off < 0x400 then ¬ (a.size = .b4 ∧ a.off % 4 = 0) else a.off % a.size.bytes ≠ 0)

/-- R80: an access whose bytes leave the window is not an access to the block, and changes nothing of it. That it goes on
with no answer, also where it is misaligned, is the model's choice (log entry 7). -/
def Obligations.AccessOutsideWindowChangesNothing : Prop :=
  ∀ (a : Access) (s : State), 0x1000 < a.off + a.size.bytes → hostAccess a s = .next { s with lastResponse := none }

/-- R92: a legal write to the `FBUF` window is ignored at every offset and any `BUSY` value. -/
def Obligations.FbufWindowIgnoresWrites : Prop :=
  ∀ (s : State) (off : Nat) (n : AccessSize) (v : Word), 0x800 ≤ off → off + n.bytes ≤ 0x1000 → off % n.bytes = 0 →
    hostAccess (.write off n v) s = .next { s with lastResponse := some .ack }

/-- R91, R85: a legal read of the `FBUF` window: zero above index 1028; the stored bytes while `BUSY` = 0; a fresh free
value for each byte up to index 1028 while `BUSY` = 1, and zero for the bytes above it. -/
def Obligations.FbufWindowReads : Prop :=
  ∀ (s : State) (off : Nat) (n : AccessSize), 0x800 ≤ off → off + n.bytes ≤ 0x1000 → off % n.bytes = 0 →
    (0x800 + 1029 ≤ off → hostAccess (.read off n) s = .next { s with lastResponse := some (.data 0#32) }) ∧
    (s.pending = none → (∀ j < n.bytes, off - 0x800 + j ≤ 1028 → (s.fbuf.read (off - 0x800 + j)).isSome = true) →
      hostAccess (.read off n) s = .next { s with lastResponse := some (.data (busValue n.bytes (fun j =>
        if off - 0x800 + j ≤ 1028 then (s.fbuf.read (off - 0x800 + j)).getD 0#8 else 0#8))) }) ∧
    (s.pending.isSome = true → off ≤ 0x800 + 1028 →
      hostAccess (.read off n) s = .next { s with
        draws := s.draws + min n.bytes (0x800 + 1029 - off)
        lastResponse := some (.data (busValue n.bytes (fun j =>
          if off - 0x800 + j ≤ 1028 then Config.drawByte (s.draws + j) else 0#8))) })

/-- R89, R91, R85: a legal read of 1, 2 or 4 buffer bytes of which one or more have never been written since reset does what
`UNINIT_READ` says: with `fault` it stops; with `draw` it answers the written bytes and, for each other one, a free value of
its own. `byte j` is the `j`-th byte read, if it has been written; above index 1028 of the `FBUF` window it is zero. That the
fault names the offset of the access is the model's choice (log entry 6), and so is the order of the draws (log entry 2). -/
def Obligations.UnwrittenByteReads : Prop :=
  ∀ (s : State) (off : Nat) (n : AccessSize) (byte : Nat → Option Byte), off % n.bytes = 0 →
    ((0x400 ≤ off ∧ off + n.bytes ≤ 0x800 ∧ byte = fun j => s.pbuf.read (off - 0x400 + j)) ∨
      (0x800 ≤ off ∧ off + n.bytes ≤ 0x1000 ∧ s.pending = none ∧
        byte = fun j => if off - 0x800 + j ≤ 1028 then s.fbuf.read (off - 0x800 + j) else some 0#8)) →
    (∃ j < n.bytes, byte j = none) →
    hostAccess (.read off n) s =
      match Config.uninitRead with
      | .fault => .fault (.uninitRead off)
      | .draw => .next { s with
          draws := s.draws + unwrittenBelow byte n.bytes
          lastResponse := some (.data (busValue n.bytes (fun j =>
            match byte j with
            | some b => b
            | none => Config.drawByte (s.draws + unwrittenBelow byte j)))) }

/-! ### Status, errors and the interrupt -/

/-- R34: what a write of `v` to `STATUS` does, at any `BUSY` value, and that it changes nothing else. -/
def Obligations.StatusWriteClearsFlags : Prop :=
  ∀ (s : State) (v : Word), hostAccess (.write 0x008 .b4 v) s = .next { s with
    done := if v.getLsbD 1 then false else s.done
    err := if v.getLsbD 2 then false else s.err
    errCode := if v.getLsbD 2 then .none else s.errCode
    lastResponse := some .ack }

/-- R241: the first error keeps its code until a host write of 1 to `STATUS[2]` or a reset; a later one is not recorded, its
command completing all the same; `ERRCODE` stays 0 while `ERR` is 0. -/
def Obligations.FirstErrorSticks : Prop :=
  (∀ s t : State, s.err = true → step s = .next t →
    (t.err = true ∧ t.errCode = s.errCode) ∨
    (∃ rest, s.schedule = .reset :: rest) ∨
    ∃ v rest, s.schedule = .access (.write 0x008 .b4 v) :: rest ∧ v.getLsbD 2 = true) ∧
  (∀ (s : State) (c : ErrCode), s.err = false → recordError c s = { s with err := true, errCode := c }) ∧
  (∀ (s : State) (c : ErrCode), s.err = true → errorComplete c s = { s with pending := none, done := true }) ∧
  (∀ s t : State, (s.err = false → s.errCode = ErrCode.none) → step s = .next t →
    t.err = false → t.errCode = ErrCode.none)

/-- R250: `irq` is `IE_DONE` and `DONE`, or `IE_ERR` and `ERR`, read from the registers' own bits; after reset it is 0. -/
def Obligations.IrqIsEnabledFlags : Prop :=
  (∀ s : State, irq s =
    (((regValue .ctrl s).getLsbD 0 && (regValue .status s).getLsbD 1) ||
      ((regValue .ctrl s).getLsbD 1 && (regValue .status s).getLsbD 2))) ∧
  ∀ s : State, irq (resetBlock s) = false

/-- R141: a write of any word to `CMD` becomes pending, with nothing else changed, and `BUSY` reads 1 at once; while a
command is pending it is a blocked write, and `BUSY` reads 1 after every host access. -/
def Obligations.IssueLatchesAnyWord : Prop :=
  ∀ (s : State) (w : Word),
    (s.pending = none → ∃ t, hostAccess (.write 0x00C .b4 w) s = .next t ∧
      t = { s with pending := some w, lastResponse := some .ack } ∧ (regValue .status t).getLsbD 0 = true) ∧
    (s.pending.isSome = true → hostAccess (.write 0x00C .b4 w) s = .next { s with
      err := true, errCode := if s.err then s.errCode else .busyViolation, lastResponse := some .ack }) ∧
    (s.pending.isSome = true → ∀ a t, hostAccess a s = .next t →
      t.pending = s.pending ∧ (regValue .status t).getLsbD 0 = true)

/-! ### The arithmetic -/

/-- R172: one byte of the generic CRC as a loop on numbers, for every width from 1 to 32; the result is below `2^W`. -/
def Obligations.CrcStepIsBitSerial : Prop :=
  ∀ (acc : Word) (b : Byte) (w : Nat) (poly : Word) (refin : Bool), 1 ≤ w → w ≤ 32 →
    (crcStep acc b w poly refin).toNat =
      [7, 6, 5, 4, 3, 2, 1, 0].foldl
        (fun a i =>
          if (a / 2 ^ (w - 1) + (if refin then b.toNat / 2 ^ (7 - i) else b.toNat / 2 ^ i)) % 2 = 1
          then (2 * a) % 2 ^ w ^^^ (poly.toNat % 2 ^ w)
          else (2 * a) % 2 ^ w)
        acc.toNat ∧
    (crcStep acc b w poly refin).toNat < 2 ^ w

/-- R177: the bits of the register and of the parameters at or above `W` never reach a result. -/
def Obligations.HighBitsNeverReachAResult : Prop :=
  ∀ (acc poly xorout : Word) (b : Byte) (w : Nat) (refin refout : Bool),
    crcStep acc b w poly refin = crcStep (acc &&& mask w) b w (poly &&& mask w) refin ∧
    crcFinal acc w refout xorout = crcFinal (acc &&& mask w) w refout (xorout &&& mask w)

/-- R181: CRC arithmetic is carry-free: one byte step is linear over GF(2) in the register and the byte together. -/
def Obligations.CrcStepIsLinear : Prop :=
  ∀ (acc acc' : Word) (b b' : Byte) (w : Nat) (poly : Word) (refin : Bool),
    crcStep (acc ^^^ acc') (b ^^^ b') w poly refin = crcStep acc b w poly refin ^^^ crcStep acc' b' w poly refin

/-- R173: bit `i` of the output function, for every width from 1 to 32. -/
def Obligations.CrcFinalBits : Prop :=
  ∀ (acc : Word) (w : Nat) (refout : Bool) (xorout : Word) (i : Nat), 1 ≤ w → w ≤ 32 →
    (crcFinal acc w refout xorout).getLsbD i =
      (decide (i < w) && ((if refout then acc.getLsbD (w - 1 - i) else acc.getLsbD i) ^^ xorout.getLsbD i))

/-- R171: reflection reverses the `n` low bits, so twice over it gives them back; reflect-in is `reflect_8` of a byte;
the rule's examples. -/
def Obligations.ReflectionReversesBits : Prop :=
  (∀ (n : Nat) (v : Word) (i : Nat), n ≤ 32 →
    (reflect n v).getLsbD i = (decide (i < n) && v.getLsbD (n - 1 - i))) ∧
  (∀ (n : Nat) (v : Word), n ≤ 32 → reflect n (reflect n v) = v &&& mask n) ∧
  (∀ (b : Byte) (i : Nat), i < 8 → (reflectByte b).getLsbD i = b.getLsbD (7 - i)) ∧
  reflect 8 0x01#32 = 0x80#32 ∧ reflect 8 0x31#32 = 0x8C#32 ∧ reflect 16 0x31C3#32 = 0xC38C#32

/-- R175: `sum8` is the sum of the bytes modulo 256, 0 for no byte, and appended zero bytes never change it. -/
def Obligations.SumIsModulo256AndIgnoresPadding : Prop :=
  (∀ s : List Byte, (sum8 s).toNat = (s.map BitVec.toNat).sum % 256) ∧
  sum8 [] = 0x00#8 ∧
  ∀ (s : List Byte) (n : Nat), sum8 (s ++ zeros n) = sum8 s

/-- R182: zero bytes leave a zero register at zero, so leading zero bytes never change a CRC-16/XMODEM. -/
def Obligations.LeadingZeroBytesKeepTheCrc : Prop :=
  (∀ (w : Nat) (poly : Word) (n : Nat), crcSteps w poly false 0#32 (zeros n) = 0#32) ∧
  (∀ n : Nat, crc16x (zeros n) = 0x0000#16) ∧
  ∀ (n : Nat) (s : List Byte), crc16x (zeros n ++ s) = crc16x s

/-- R179: `CALC_INIT` and then a `CALC_BYTE` for each byte, or one `CALC_BUF` over them, give the source's functions: the
generic CRC of the bytes under the configuration, which is `crc16x` under the reset configuration, and `sum8`. -/
def Obligations.EngineComputesTheFunctions : Prop :=
  ∀ (s : State) (bytes : List Byte) (is : List Instr),
    (is = bytes.map (fun b => Instr.calcByte b.toNat) ∨
      (is = [.calcBuf] ∧ s.len.toNat ≤ 1024 ∧ PbufWritten s.len.toNat s ∧ bytes = pbufBytes s.len.toNat s)) →
    ∃ t, execAll (.calcInit :: is) s = .next t ∧
      t = { s with crcAcc := t.crcAcc, sumAcc := sum8 bytes, pending := none, done := true } ∧
      regValue .crcResult t = crcFinal
        (bytes.foldl (fun a b => crcStep a b s.crcWidth.toNat s.crcPoly s.crcRefin)
          (s.crcInit &&& mask s.crcWidth.toNat))
        s.crcWidth.toNat s.crcRefout s.crcXorout ∧
      (s.crcPoly = 0x1021#32 ∧ s.crcInit = 0#32 ∧ s.crcXorout = 0#32 ∧ s.crcWidth = 16#6 ∧ s.crcRefin = false ∧
          s.crcRefout = false →
        regValue .crcResult t = (crc16x bytes).setWidth 32)

/-- R211: the digits of `dec(S)` are ASCII, spell `S`, number 1 to 10 and do not begin with a zero but for `S` = 0. -/
def Obligations.DecimalDigitsSpellTheSize : Prop :=
  (∀ size : Word,
    (dec size).foldl (fun n b => 10 * n + (b.toNat - 0x30)) 0 = size.toNat ∧
    1 ≤ (dec size).length ∧ (dec size).length ≤ 10 ∧
    (∀ b ∈ dec size, 0x30 ≤ b.toNat ∧ b.toNat ≤ 0x39) ∧
    (size ≠ 0#32 → (dec size).head? ≠ some 0x30#8)) ∧
  dec 0#32 = [0x30#8] ∧
  dec 4294967295#32 = [0x34#8, 0x32#8, 0x39#8, 0x34#8, 0x39#8, 0x36#8, 0x37#8, 0x32#8, 0x39#8, 0x35#8]

/-- R204: the third header byte is the one's complement of the second, in every packet `FBUF` holds. -/
def Obligations.ThirdHeaderByteIsComplement : Prop :=
  (∀ q : Byte, 255#8 - q = ~~~q ∧ q.toNat + (255#8 - q).toNat = 255) ∧
  ∀ s : State, FbufHoldsPacket s → s.frameLen ≠ 0#11 →
    ∃ q, s.fbuf.read 1 = some q ∧ s.fbuf.read 2 = some (255#8 - q)

/-! ### Host programs -/

/-- R119, R142: the steps of `RUN cmd` from an idle block end with the command performed and the host's last read of
`STATUS` answering the status it left, however many reads found `BUSY` = 1 before. -/
def Obligations.RunCommandPerformsIt : Prop :=
  ∀ (s : State) (i : Instr) (before : Nat) (rest : List Event), i.WellFormed → s.pending = none →
    s.schedule = runCommand i before ++ rest →
    ∃ answer, ∀ t,
      exec i { s with
        pending := some (encode i)
        schedule := r32 Reg.status.offset :: rest
        lastResponse := answer } = .next t →
      Reaches (before + 3) s { t with schedule := rest, lastResponse := some (.data (regValue .status t)) } ∧
      (regValue .status t).getLsbD 0 = false

/-- R293 and V31: a write issued right after `SEQ_INC` has two outcomes, by the order of the steps, and the model admits
both. -/
def Obligations.IssueThenWriteAdmitsBothOrders : Prop :=
  ∀ s : State, s.pending = none → s.err = false →
    (s.schedule = issue .seqInc ++ [.perform, w32 Reg.seq.offset 0x05#32] →
      Reaches 3 s { s with seq := 0x05#8, done := true, schedule := [], lastResponse := some .ack }) ∧
    (s.schedule = issue .seqInc ++ [w32 Reg.seq.offset 0x05#32, .perform] →
      Reaches 3 s { s with
        seq := s.seq + 1#8
        done := true
        err := true
        errCode := .busyViolation
        schedule := []
        lastResponse := some .ack })
end

