-- ==== Sys2Proof/Laws/State.lean ====
section
/-! SUPPORT. One lemma per field per shared update of the state, each true by definition, so that no later proof
unfolds a record update. -/

namespace Sys2Proof.Machine

/-! ### `complete` -/

@[simp] theorem complete_ieDone (s : State) : (complete s).ieDone = s.ieDone := rfl
@[simp] theorem complete_ieErr (s : State) : (complete s).ieErr = s.ieErr := rfl
@[simp] theorem complete_done (s : State) : (complete s).done = true := rfl
@[simp] theorem complete_err (s : State) : (complete s).err = s.err := rfl
@[simp] theorem complete_errCode (s : State) : (complete s).errCode = s.errCode := rfl
@[simp] theorem complete_crcPoly (s : State) : (complete s).crcPoly = s.crcPoly := rfl
@[simp] theorem complete_crcInit (s : State) : (complete s).crcInit = s.crcInit := rfl
@[simp] theorem complete_crcXorout (s : State) : (complete s).crcXorout = s.crcXorout := rfl
@[simp] theorem complete_crcWidth (s : State) : (complete s).crcWidth = s.crcWidth := rfl
@[simp] theorem complete_crcRefin (s : State) : (complete s).crcRefin = s.crcRefin := rfl
@[simp] theorem complete_crcRefout (s : State) : (complete s).crcRefout = s.crcRefout := rfl
@[simp] theorem complete_crcAcc (s : State) : (complete s).crcAcc = s.crcAcc := rfl
@[simp] theorem complete_sumAcc (s : State) : (complete s).sumAcc = s.sumAcc := rfl
@[simp] theorem complete_len (s : State) : (complete s).len = s.len := rfl
@[simp] theorem complete_seq (s : State) : (complete s).seq = s.seq := rfl
@[simp] theorem complete_frameType (s : State) : (complete s).frameType = s.frameType := rfl
@[simp] theorem complete_frameScheme (s : State) : (complete s).frameScheme = s.frameScheme := rfl
@[simp] theorem complete_frameLen (s : State) : (complete s).frameLen = s.frameLen := rfl
@[simp] theorem complete_fileSize (s : State) : (complete s).fileSize = s.fileSize := rfl
@[simp] theorem complete_pbuf (s : State) : (complete s).pbuf = s.pbuf := rfl
@[simp] theorem complete_fbuf (s : State) : (complete s).fbuf = s.fbuf := rfl
@[simp] theorem complete_pending (s : State) : (complete s).pending = none := rfl
@[simp] theorem complete_schedule (s : State) : (complete s).schedule = s.schedule := rfl
@[simp] theorem complete_draws (s : State) : (complete s).draws = s.draws := rfl
@[simp] theorem complete_lastResponse (s : State) : (complete s).lastResponse = s.lastResponse := rfl

/-! ### `recordError` -/

@[simp] theorem recordError_ieDone (c : ErrCode) (s : State) : (recordError c s).ieDone = s.ieDone := rfl
@[simp] theorem recordError_ieErr (c : ErrCode) (s : State) : (recordError c s).ieErr = s.ieErr := rfl
@[simp] theorem recordError_done (c : ErrCode) (s : State) : (recordError c s).done = s.done := rfl
@[simp] theorem recordError_err (c : ErrCode) (s : State) : (recordError c s).err = true := rfl
@[simp] theorem recordError_errCode (c : ErrCode) (s : State) : (recordError c s).errCode = if s.err then s.errCode else c := rfl
@[simp] theorem recordError_crcPoly (c : ErrCode) (s : State) : (recordError c s).crcPoly = s.crcPoly := rfl
@[simp] theorem recordError_crcInit (c : ErrCode) (s : State) : (recordError c s).crcInit = s.crcInit := rfl
@[simp] theorem recordError_crcXorout (c : ErrCode) (s : State) : (recordError c s).crcXorout = s.crcXorout := rfl
@[simp] theorem recordError_crcWidth (c : ErrCode) (s : State) : (recordError c s).crcWidth = s.crcWidth := rfl
@[simp] theorem recordError_crcRefin (c : ErrCode) (s : State) : (recordError c s).crcRefin = s.crcRefin := rfl
@[simp] theorem recordError_crcRefout (c : ErrCode) (s : State) : (recordError c s).crcRefout = s.crcRefout := rfl
@[simp] theorem recordError_crcAcc (c : ErrCode) (s : State) : (recordError c s).crcAcc = s.crcAcc := rfl
@[simp] theorem recordError_sumAcc (c : ErrCode) (s : State) : (recordError c s).sumAcc = s.sumAcc := rfl
@[simp] theorem recordError_len (c : ErrCode) (s : State) : (recordError c s).len = s.len := rfl
@[simp] theorem recordError_seq (c : ErrCode) (s : State) : (recordError c s).seq = s.seq := rfl
@[simp] theorem recordError_frameType (c : ErrCode) (s : State) : (recordError c s).frameType = s.frameType := rfl
@[simp] theorem recordError_frameScheme (c : ErrCode) (s : State) : (recordError c s).frameScheme = s.frameScheme := rfl
@[simp] theorem recordError_frameLen (c : ErrCode) (s : State) : (recordError c s).frameLen = s.frameLen := rfl
@[simp] theorem recordError_fileSize (c : ErrCode) (s : State) : (recordError c s).fileSize = s.fileSize := rfl
@[simp] theorem recordError_pbuf (c : ErrCode) (s : State) : (recordError c s).pbuf = s.pbuf := rfl
@[simp] theorem recordError_fbuf (c : ErrCode) (s : State) : (recordError c s).fbuf = s.fbuf := rfl
@[simp] theorem recordError_pending (c : ErrCode) (s : State) : (recordError c s).pending = s.pending := rfl
@[simp] theorem recordError_schedule (c : ErrCode) (s : State) : (recordError c s).schedule = s.schedule := rfl
@[simp] theorem recordError_draws (c : ErrCode) (s : State) : (recordError c s).draws = s.draws := rfl
@[simp] theorem recordError_lastResponse (c : ErrCode) (s : State) : (recordError c s).lastResponse = s.lastResponse := rfl

/-! ### `errorComplete` -/

@[simp] theorem errorComplete_ieDone (c : ErrCode) (s : State) : (errorComplete c s).ieDone = s.ieDone := rfl
@[simp] theorem errorComplete_ieErr (c : ErrCode) (s : State) : (errorComplete c s).ieErr = s.ieErr := rfl
@[simp] theorem errorComplete_done (c : ErrCode) (s : State) : (errorComplete c s).done = true := rfl
@[simp] theorem errorComplete_err (c : ErrCode) (s : State) : (errorComplete c s).err = true := rfl
@[simp] theorem errorComplete_errCode (c : ErrCode) (s : State) : (errorComplete c s).errCode = if s.err then s.errCode else c := rfl
@[simp] theorem errorComplete_crcPoly (c : ErrCode) (s : State) : (errorComplete c s).crcPoly = s.crcPoly := rfl
@[simp] theorem errorComplete_crcInit (c : ErrCode) (s : State) : (errorComplete c s).crcInit = s.crcInit := rfl
@[simp] theorem errorComplete_crcXorout (c : ErrCode) (s : State) : (errorComplete c s).crcXorout = s.crcXorout := rfl
@[simp] theorem errorComplete_crcWidth (c : ErrCode) (s : State) : (errorComplete c s).crcWidth = s.crcWidth := rfl
@[simp] theorem errorComplete_crcRefin (c : ErrCode) (s : State) : (errorComplete c s).crcRefin = s.crcRefin := rfl
@[simp] theorem errorComplete_crcRefout (c : ErrCode) (s : State) : (errorComplete c s).crcRefout = s.crcRefout := rfl
@[simp] theorem errorComplete_crcAcc (c : ErrCode) (s : State) : (errorComplete c s).crcAcc = s.crcAcc := rfl
@[simp] theorem errorComplete_sumAcc (c : ErrCode) (s : State) : (errorComplete c s).sumAcc = s.sumAcc := rfl
@[simp] theorem errorComplete_len (c : ErrCode) (s : State) : (errorComplete c s).len = s.len := rfl
@[simp] theorem errorComplete_seq (c : ErrCode) (s : State) : (errorComplete c s).seq = s.seq := rfl
@[simp] theorem errorComplete_frameType (c : ErrCode) (s : State) : (errorComplete c s).frameType = s.frameType := rfl
@[simp] theorem errorComplete_frameScheme (c : ErrCode) (s : State) : (errorComplete c s).frameScheme = s.frameScheme := rfl
@[simp] theorem errorComplete_frameLen (c : ErrCode) (s : State) : (errorComplete c s).frameLen = s.frameLen := rfl
@[simp] theorem errorComplete_fileSize (c : ErrCode) (s : State) : (errorComplete c s).fileSize = s.fileSize := rfl
@[simp] theorem errorComplete_pbuf (c : ErrCode) (s : State) : (errorComplete c s).pbuf = s.pbuf := rfl
@[simp] theorem errorComplete_fbuf (c : ErrCode) (s : State) : (errorComplete c s).fbuf = s.fbuf := rfl
@[simp] theorem errorComplete_pending (c : ErrCode) (s : State) : (errorComplete c s).pending = none := rfl
@[simp] theorem errorComplete_schedule (c : ErrCode) (s : State) : (errorComplete c s).schedule = s.schedule := rfl
@[simp] theorem errorComplete_draws (c : ErrCode) (s : State) : (errorComplete c s).draws = s.draws := rfl
@[simp] theorem errorComplete_lastResponse (c : ErrCode) (s : State) : (errorComplete c s).lastResponse = s.lastResponse := rfl

/-! ### `writeStatus` -/

@[simp] theorem writeStatus_ieDone (v : Word) (s : State) : (writeStatus v s).ieDone = s.ieDone := rfl
@[simp] theorem writeStatus_ieErr (v : Word) (s : State) : (writeStatus v s).ieErr = s.ieErr := rfl
@[simp] theorem writeStatus_done (v : Word) (s : State) : (writeStatus v s).done = (s.done && !v.getLsbD 1) := rfl
@[simp] theorem writeStatus_err (v : Word) (s : State) : (writeStatus v s).err = (s.err && !v.getLsbD 2) := rfl
@[simp] theorem writeStatus_errCode (v : Word) (s : State) : (writeStatus v s).errCode = if v.getLsbD 2 then .none else s.errCode := rfl
@[simp] theorem writeStatus_crcPoly (v : Word) (s : State) : (writeStatus v s).crcPoly = s.crcPoly := rfl
@[simp] theorem writeStatus_crcInit (v : Word) (s : State) : (writeStatus v s).crcInit = s.crcInit := rfl
@[simp] theorem writeStatus_crcXorout (v : Word) (s : State) : (writeStatus v s).crcXorout = s.crcXorout := rfl
@[simp] theorem writeStatus_crcWidth (v : Word) (s : State) : (writeStatus v s).crcWidth = s.crcWidth := rfl
@[simp] theorem writeStatus_crcRefin (v : Word) (s : State) : (writeStatus v s).crcRefin = s.crcRefin := rfl
@[simp] theorem writeStatus_crcRefout (v : Word) (s : State) : (writeStatus v s).crcRefout = s.crcRefout := rfl
@[simp] theorem writeStatus_crcAcc (v : Word) (s : State) : (writeStatus v s).crcAcc = s.crcAcc := rfl
@[simp] theorem writeStatus_sumAcc (v : Word) (s : State) : (writeStatus v s).sumAcc = s.sumAcc := rfl
@[simp] theorem writeStatus_len (v : Word) (s : State) : (writeStatus v s).len = s.len := rfl
@[simp] theorem writeStatus_seq (v : Word) (s : State) : (writeStatus v s).seq = s.seq := rfl
@[simp] theorem writeStatus_frameType (v : Word) (s : State) : (writeStatus v s).frameType = s.frameType := rfl
@[simp] theorem writeStatus_frameScheme (v : Word) (s : State) : (writeStatus v s).frameScheme = s.frameScheme := rfl
@[simp] theorem writeStatus_frameLen (v : Word) (s : State) : (writeStatus v s).frameLen = s.frameLen := rfl
@[simp] theorem writeStatus_fileSize (v : Word) (s : State) : (writeStatus v s).fileSize = s.fileSize := rfl
@[simp] theorem writeStatus_pbuf (v : Word) (s : State) : (writeStatus v s).pbuf = s.pbuf := rfl
@[simp] theorem writeStatus_fbuf (v : Word) (s : State) : (writeStatus v s).fbuf = s.fbuf := rfl
@[simp] theorem writeStatus_pending (v : Word) (s : State) : (writeStatus v s).pending = s.pending := rfl
@[simp] theorem writeStatus_schedule (v : Word) (s : State) : (writeStatus v s).schedule = s.schedule := rfl
@[simp] theorem writeStatus_draws (v : Word) (s : State) : (writeStatus v s).draws = s.draws := rfl
@[simp] theorem writeStatus_lastResponse (v : Word) (s : State) : (writeStatus v s).lastResponse = s.lastResponse := rfl

/-! ### `answerRead` -/

@[simp] theorem answerRead_ieDone (v : Word) (d : Nat) (s : State) : (answerRead v d s).ieDone = s.ieDone := rfl
@[simp] theorem answerRead_ieErr (v : Word) (d : Nat) (s : State) : (answerRead v d s).ieErr = s.ieErr := rfl
@[simp] theorem answerRead_done (v : Word) (d : Nat) (s : State) : (answerRead v d s).done = s.done := rfl
@[simp] theorem answerRead_err (v : Word) (d : Nat) (s : State) : (answerRead v d s).err = s.err := rfl
@[simp] theorem answerRead_errCode (v : Word) (d : Nat) (s : State) : (answerRead v d s).errCode = s.errCode := rfl
@[simp] theorem answerRead_crcPoly (v : Word) (d : Nat) (s : State) : (answerRead v d s).crcPoly = s.crcPoly := rfl
@[simp] theorem answerRead_crcInit (v : Word) (d : Nat) (s : State) : (answerRead v d s).crcInit = s.crcInit := rfl
@[simp] theorem answerRead_crcXorout (v : Word) (d : Nat) (s : State) : (answerRead v d s).crcXorout = s.crcXorout := rfl
@[simp] theorem answerRead_crcWidth (v : Word) (d : Nat) (s : State) : (answerRead v d s).crcWidth = s.crcWidth := rfl
@[simp] theorem answerRead_crcRefin (v : Word) (d : Nat) (s : State) : (answerRead v d s).crcRefin = s.crcRefin := rfl
@[simp] theorem answerRead_crcRefout (v : Word) (d : Nat) (s : State) : (answerRead v d s).crcRefout = s.crcRefout := rfl
@[simp] theorem answerRead_crcAcc (v : Word) (d : Nat) (s : State) : (answerRead v d s).crcAcc = s.crcAcc := rfl
@[simp] theorem answerRead_sumAcc (v : Word) (d : Nat) (s : State) : (answerRead v d s).sumAcc = s.sumAcc := rfl
@[simp] theorem answerRead_len (v : Word) (d : Nat) (s : State) : (answerRead v d s).len = s.len := rfl
@[simp] theorem answerRead_seq (v : Word) (d : Nat) (s : State) : (answerRead v d s).seq = s.seq := rfl
@[simp] theorem answerRead_frameType (v : Word) (d : Nat) (s : State) : (answerRead v d s).frameType = s.frameType := rfl
@[simp] theorem answerRead_frameScheme (v : Word) (d : Nat) (s : State) : (answerRead v d s).frameScheme = s.frameScheme := rfl
@[simp] theorem answerRead_frameLen (v : Word) (d : Nat) (s : State) : (answerRead v d s).frameLen = s.frameLen := rfl
@[simp] theorem answerRead_fileSize (v : Word) (d : Nat) (s : State) : (answerRead v d s).fileSize = s.fileSize := rfl
@[simp] theorem answerRead_pbuf (v : Word) (d : Nat) (s : State) : (answerRead v d s).pbuf = s.pbuf := rfl
@[simp] theorem answerRead_fbuf (v : Word) (d : Nat) (s : State) : (answerRead v d s).fbuf = s.fbuf := rfl
@[simp] theorem answerRead_pending (v : Word) (d : Nat) (s : State) : (answerRead v d s).pending = s.pending := rfl
@[simp] theorem answerRead_schedule (v : Word) (d : Nat) (s : State) : (answerRead v d s).schedule = s.schedule := rfl
@[simp] theorem answerRead_draws (v : Word) (d : Nat) (s : State) : (answerRead v d s).draws = d := rfl
@[simp] theorem answerRead_lastResponse (v : Word) (d : Nat) (s : State) : (answerRead v d s).lastResponse = some (.data v) := rfl

/-! ### `feed` -/

@[simp] theorem feed_ieDone (s : State) (b : Byte) : (feed s b).ieDone = s.ieDone := rfl
@[simp] theorem feed_ieErr (s : State) (b : Byte) : (feed s b).ieErr = s.ieErr := rfl
@[simp] theorem feed_done (s : State) (b : Byte) : (feed s b).done = s.done := rfl
@[simp] theorem feed_err (s : State) (b : Byte) : (feed s b).err = s.err := rfl
@[simp] theorem feed_errCode (s : State) (b : Byte) : (feed s b).errCode = s.errCode := rfl
@[simp] theorem feed_crcPoly (s : State) (b : Byte) : (feed s b).crcPoly = s.crcPoly := rfl
@[simp] theorem feed_crcInit (s : State) (b : Byte) : (feed s b).crcInit = s.crcInit := rfl
@[simp] theorem feed_crcXorout (s : State) (b : Byte) : (feed s b).crcXorout = s.crcXorout := rfl
@[simp] theorem feed_crcWidth (s : State) (b : Byte) : (feed s b).crcWidth = s.crcWidth := rfl
@[simp] theorem feed_crcRefin (s : State) (b : Byte) : (feed s b).crcRefin = s.crcRefin := rfl
@[simp] theorem feed_crcRefout (s : State) (b : Byte) : (feed s b).crcRefout = s.crcRefout := rfl
@[simp] theorem feed_crcAcc (s : State) (b : Byte) : (feed s b).crcAcc = crcStep s.crcAcc b s.width s.crcPoly s.crcRefin := rfl
@[simp] theorem feed_sumAcc (s : State) (b : Byte) : (feed s b).sumAcc = s.sumAcc + b := rfl
@[simp] theorem feed_len (s : State) (b : Byte) : (feed s b).len = s.len := rfl
@[simp] theorem feed_seq (s : State) (b : Byte) : (feed s b).seq = s.seq := rfl
@[simp] theorem feed_frameType (s : State) (b : Byte) : (feed s b).frameType = s.frameType := rfl
@[simp] theorem feed_frameScheme (s : State) (b : Byte) : (feed s b).frameScheme = s.frameScheme := rfl
@[simp] theorem feed_frameLen (s : State) (b : Byte) : (feed s b).frameLen = s.frameLen := rfl
@[simp] theorem feed_fileSize (s : State) (b : Byte) : (feed s b).fileSize = s.fileSize := rfl
@[simp] theorem feed_pbuf (s : State) (b : Byte) : (feed s b).pbuf = s.pbuf := rfl
@[simp] theorem feed_fbuf (s : State) (b : Byte) : (feed s b).fbuf = s.fbuf := rfl
@[simp] theorem feed_pending (s : State) (b : Byte) : (feed s b).pending = s.pending := rfl
@[simp] theorem feed_schedule (s : State) (b : Byte) : (feed s b).schedule = s.schedule := rfl
@[simp] theorem feed_draws (s : State) (b : Byte) : (feed s b).draws = s.draws := rfl
@[simp] theorem feed_lastResponse (s : State) (b : Byte) : (feed s b).lastResponse = s.lastResponse := rfl

/-! ### `writeFrame` -/

@[simp] theorem writeFrame_ieDone (f : List Byte) (s : State) : (writeFrame f s).ieDone = s.ieDone := rfl
@[simp] theorem writeFrame_ieErr (f : List Byte) (s : State) : (writeFrame f s).ieErr = s.ieErr := rfl
@[simp] theorem writeFrame_done (f : List Byte) (s : State) : (writeFrame f s).done = s.done := rfl
@[simp] theorem writeFrame_err (f : List Byte) (s : State) : (writeFrame f s).err = s.err := rfl
@[simp] theorem writeFrame_errCode (f : List Byte) (s : State) : (writeFrame f s).errCode = s.errCode := rfl
@[simp] theorem writeFrame_crcPoly (f : List Byte) (s : State) : (writeFrame f s).crcPoly = s.crcPoly := rfl
@[simp] theorem writeFrame_crcInit (f : List Byte) (s : State) : (writeFrame f s).crcInit = s.crcInit := rfl
@[simp] theorem writeFrame_crcXorout (f : List Byte) (s : State) : (writeFrame f s).crcXorout = s.crcXorout := rfl
@[simp] theorem writeFrame_crcWidth (f : List Byte) (s : State) : (writeFrame f s).crcWidth = s.crcWidth := rfl
@[simp] theorem writeFrame_crcRefin (f : List Byte) (s : State) : (writeFrame f s).crcRefin = s.crcRefin := rfl
@[simp] theorem writeFrame_crcRefout (f : List Byte) (s : State) : (writeFrame f s).crcRefout = s.crcRefout := rfl
@[simp] theorem writeFrame_crcAcc (f : List Byte) (s : State) : (writeFrame f s).crcAcc = s.crcAcc := rfl
@[simp] theorem writeFrame_sumAcc (f : List Byte) (s : State) : (writeFrame f s).sumAcc = s.sumAcc := rfl
@[simp] theorem writeFrame_len (f : List Byte) (s : State) : (writeFrame f s).len = s.len := rfl
@[simp] theorem writeFrame_seq (f : List Byte) (s : State) : (writeFrame f s).seq = s.seq := rfl
@[simp] theorem writeFrame_frameType (f : List Byte) (s : State) : (writeFrame f s).frameType = s.frameType := rfl
@[simp] theorem writeFrame_frameScheme (f : List Byte) (s : State) : (writeFrame f s).frameScheme = s.frameScheme := rfl
@[simp] theorem writeFrame_frameLen (f : List Byte) (s : State) : (writeFrame f s).frameLen = BitVec.ofNat 11 f.length := rfl
@[simp] theorem writeFrame_fileSize (f : List Byte) (s : State) : (writeFrame f s).fileSize = s.fileSize := rfl
@[simp] theorem writeFrame_pbuf (f : List Byte) (s : State) : (writeFrame f s).pbuf = s.pbuf := rfl
@[simp] theorem writeFrame_fbuf (f : List Byte) (s : State) : (writeFrame f s).fbuf = Memory.listed 0 (f ++ zeros (Config.fbufSize - f.length)) := rfl
@[simp] theorem writeFrame_pending (f : List Byte) (s : State) : (writeFrame f s).pending = s.pending := rfl
@[simp] theorem writeFrame_schedule (f : List Byte) (s : State) : (writeFrame f s).schedule = s.schedule := rfl
@[simp] theorem writeFrame_draws (f : List Byte) (s : State) : (writeFrame f s).draws = s.draws := rfl
@[simp] theorem writeFrame_lastResponse (f : List Byte) (s : State) : (writeFrame f s).lastResponse = s.lastResponse := rfl

/-! ### `acknowledge` -/

@[simp] theorem acknowledge_ieDone (s : State) : (acknowledge s).ieDone = s.ieDone := rfl
@[simp] theorem acknowledge_ieErr (s : State) : (acknowledge s).ieErr = s.ieErr := rfl
@[simp] theorem acknowledge_done (s : State) : (acknowledge s).done = s.done := rfl
@[simp] theorem acknowledge_err (s : State) : (acknowledge s).err = s.err := rfl
@[simp] theorem acknowledge_errCode (s : State) : (acknowledge s).errCode = s.errCode := rfl
@[simp] theorem acknowledge_crcPoly (s : State) : (acknowledge s).crcPoly = s.crcPoly := rfl
@[simp] theorem acknowledge_crcInit (s : State) : (acknowledge s).crcInit = s.crcInit := rfl
@[simp] theorem acknowledge_crcXorout (s : State) : (acknowledge s).crcXorout = s.crcXorout := rfl
@[simp] theorem acknowledge_crcWidth (s : State) : (acknowledge s).crcWidth = s.crcWidth := rfl
@[simp] theorem acknowledge_crcRefin (s : State) : (acknowledge s).crcRefin = s.crcRefin := rfl
@[simp] theorem acknowledge_crcRefout (s : State) : (acknowledge s).crcRefout = s.crcRefout := rfl
@[simp] theorem acknowledge_crcAcc (s : State) : (acknowledge s).crcAcc = s.crcAcc := rfl
@[simp] theorem acknowledge_sumAcc (s : State) : (acknowledge s).sumAcc = s.sumAcc := rfl
@[simp] theorem acknowledge_len (s : State) : (acknowledge s).len = s.len := rfl
@[simp] theorem acknowledge_seq (s : State) : (acknowledge s).seq = s.seq := rfl
@[simp] theorem acknowledge_frameType (s : State) : (acknowledge s).frameType = s.frameType := rfl
@[simp] theorem acknowledge_frameScheme (s : State) : (acknowledge s).frameScheme = s.frameScheme := rfl
@[simp] theorem acknowledge_frameLen (s : State) : (acknowledge s).frameLen = s.frameLen := rfl
@[simp] theorem acknowledge_fileSize (s : State) : (acknowledge s).fileSize = s.fileSize := rfl
@[simp] theorem acknowledge_pbuf (s : State) : (acknowledge s).pbuf = s.pbuf := rfl
@[simp] theorem acknowledge_fbuf (s : State) : (acknowledge s).fbuf = s.fbuf := rfl
@[simp] theorem acknowledge_pending (s : State) : (acknowledge s).pending = s.pending := rfl
@[simp] theorem acknowledge_schedule (s : State) : (acknowledge s).schedule = s.schedule := rfl
@[simp] theorem acknowledge_draws (s : State) : (acknowledge s).draws = s.draws := rfl
@[simp] theorem acknowledge_lastResponse (s : State) : (acknowledge s).lastResponse = some .ack := rfl

/-! ### `withSchedule` -/

@[simp] theorem withSchedule_ieDone (rest : List Event) (s : State) : (withSchedule rest s).ieDone = s.ieDone := rfl
@[simp] theorem withSchedule_ieErr (rest : List Event) (s : State) : (withSchedule rest s).ieErr = s.ieErr := rfl
@[simp] theorem withSchedule_done (rest : List Event) (s : State) : (withSchedule rest s).done = s.done := rfl
@[simp] theorem withSchedule_err (rest : List Event) (s : State) : (withSchedule rest s).err = s.err := rfl
@[simp] theorem withSchedule_errCode (rest : List Event) (s : State) : (withSchedule rest s).errCode = s.errCode := rfl
@[simp] theorem withSchedule_crcPoly (rest : List Event) (s : State) : (withSchedule rest s).crcPoly = s.crcPoly := rfl
@[simp] theorem withSchedule_crcInit (rest : List Event) (s : State) : (withSchedule rest s).crcInit = s.crcInit := rfl
@[simp] theorem withSchedule_crcXorout (rest : List Event) (s : State) : (withSchedule rest s).crcXorout = s.crcXorout := rfl
@[simp] theorem withSchedule_crcWidth (rest : List Event) (s : State) : (withSchedule rest s).crcWidth = s.crcWidth := rfl
@[simp] theorem withSchedule_crcRefin (rest : List Event) (s : State) : (withSchedule rest s).crcRefin = s.crcRefin := rfl
@[simp] theorem withSchedule_crcRefout (rest : List Event) (s : State) : (withSchedule rest s).crcRefout = s.crcRefout := rfl
@[simp] theorem withSchedule_crcAcc (rest : List Event) (s : State) : (withSchedule rest s).crcAcc = s.crcAcc := rfl
@[simp] theorem withSchedule_sumAcc (rest : List Event) (s : State) : (withSchedule rest s).sumAcc = s.sumAcc := rfl
@[simp] theorem withSchedule_len (rest : List Event) (s : State) : (withSchedule rest s).len = s.len := rfl
@[simp] theorem withSchedule_seq (rest : List Event) (s : State) : (withSchedule rest s).seq = s.seq := rfl
@[simp] theorem withSchedule_frameType (rest : List Event) (s : State) : (withSchedule rest s).frameType = s.frameType := rfl
@[simp] theorem withSchedule_frameScheme (rest : List Event) (s : State) : (withSchedule rest s).frameScheme = s.frameScheme := rfl
@[simp] theorem withSchedule_frameLen (rest : List Event) (s : State) : (withSchedule rest s).frameLen = s.frameLen := rfl
@[simp] theorem withSchedule_fileSize (rest : List Event) (s : State) : (withSchedule rest s).fileSize = s.fileSize := rfl
@[simp] theorem withSchedule_pbuf (rest : List Event) (s : State) : (withSchedule rest s).pbuf = s.pbuf := rfl
@[simp] theorem withSchedule_fbuf (rest : List Event) (s : State) : (withSchedule rest s).fbuf = s.fbuf := rfl
@[simp] theorem withSchedule_pending (rest : List Event) (s : State) : (withSchedule rest s).pending = s.pending := rfl
@[simp] theorem withSchedule_schedule (rest : List Event) (s : State) : (withSchedule rest s).schedule = rest := rfl
@[simp] theorem withSchedule_draws (rest : List Event) (s : State) : (withSchedule rest s).draws = s.draws := rfl
@[simp] theorem withSchedule_lastResponse (rest : List Event) (s : State) : (withSchedule rest s).lastResponse = s.lastResponse := rfl

/-! ### `resetBlock` -/

@[simp] theorem resetBlock_ieDone (s : State) : (resetBlock s).ieDone = State.reset.ieDone := rfl
@[simp] theorem resetBlock_ieErr (s : State) : (resetBlock s).ieErr = State.reset.ieErr := rfl
@[simp] theorem resetBlock_done (s : State) : (resetBlock s).done = State.reset.done := rfl
@[simp] theorem resetBlock_err (s : State) : (resetBlock s).err = State.reset.err := rfl
@[simp] theorem resetBlock_errCode (s : State) : (resetBlock s).errCode = State.reset.errCode := rfl
@[simp] theorem resetBlock_crcPoly (s : State) : (resetBlock s).crcPoly = State.reset.crcPoly := rfl
@[simp] theorem resetBlock_crcInit (s : State) : (resetBlock s).crcInit = State.reset.crcInit := rfl
@[simp] theorem resetBlock_crcXorout (s : State) : (resetBlock s).crcXorout = State.reset.crcXorout := rfl
@[simp] theorem resetBlock_crcWidth (s : State) : (resetBlock s).crcWidth = State.reset.crcWidth := rfl
@[simp] theorem resetBlock_crcRefin (s : State) : (resetBlock s).crcRefin = State.reset.crcRefin := rfl
@[simp] theorem resetBlock_crcRefout (s : State) : (resetBlock s).crcRefout = State.reset.crcRefout := rfl
@[simp] theorem resetBlock_crcAcc (s : State) : (resetBlock s).crcAcc = State.reset.crcAcc := rfl
@[simp] theorem resetBlock_sumAcc (s : State) : (resetBlock s).sumAcc = State.reset.sumAcc := rfl
@[simp] theorem resetBlock_len (s : State) : (resetBlock s).len = State.reset.len := rfl
@[simp] theorem resetBlock_seq (s : State) : (resetBlock s).seq = State.reset.seq := rfl
@[simp] theorem resetBlock_frameType (s : State) : (resetBlock s).frameType = State.reset.frameType := rfl
@[simp] theorem resetBlock_frameScheme (s : State) : (resetBlock s).frameScheme = State.reset.frameScheme := rfl
@[simp] theorem resetBlock_frameLen (s : State) : (resetBlock s).frameLen = State.reset.frameLen := rfl
@[simp] theorem resetBlock_fileSize (s : State) : (resetBlock s).fileSize = State.reset.fileSize := rfl
@[simp] theorem resetBlock_pbuf (s : State) : (resetBlock s).pbuf = State.reset.pbuf := rfl
@[simp] theorem resetBlock_fbuf (s : State) : (resetBlock s).fbuf = State.reset.fbuf := rfl
@[simp] theorem resetBlock_pending (s : State) : (resetBlock s).pending = State.reset.pending := rfl
@[simp] theorem resetBlock_schedule (s : State) : (resetBlock s).schedule = s.schedule := rfl
@[simp] theorem resetBlock_draws (s : State) : (resetBlock s).draws = s.draws := rfl
@[simp] theorem resetBlock_lastResponse (s : State) : (resetBlock s).lastResponse = State.reset.lastResponse := rfl

/-! ### The computed views -/

@[simp] theorem blockedWrite_eq (s : State) : blockedWrite s = recordError .busyViolation s := rfl
@[simp] theorem complete_busy (s : State) : (complete s).busy = false := rfl
@[simp] theorem errorComplete_busy (c : ErrCode) (s : State) : (errorComplete c s).busy = false := rfl
@[simp] theorem recordError_busy (c : ErrCode) (s : State) : (recordError c s).busy = s.busy := rfl
@[simp] theorem answerRead_busy (v : Word) (d : Nat) (s : State) : (answerRead v d s).busy = s.busy := rfl
@[simp] theorem acknowledge_busy (s : State) : (acknowledge s).busy = s.busy := rfl
@[simp] theorem withSchedule_busy (rest : List Event) (s : State) : (withSchedule rest s).busy = s.busy := rfl
@[simp] theorem feed_width (s : State) (b : Byte) : (feed s b).width = s.width := rfl

end Sys2Proof.Machine
end

