-- ==== Sys2Proof/Laws/Crc.lean ====
section
/-! SUPPORT. The laws of the arithmetic: the bits of a mask, of a reflection and of one turn of the CRC loop. -/

namespace Sys2Proof

theorem getLsbD_placeBit (b : Bool) (i j : Nat) :
    (placeBit b i).getLsbD j = (b && decide (j = i) && decide (j < 32)) := by
  unfold placeBit
  cases b
  · simp
  · rw [if_pos rfl, BitVec.getLsbD_shiftLeft, BitVec.getLsbD_one]
    by_cases h : j = i
    · subst h
      simp
    · have h1 : j < 32 → i ≤ j → ¬ j - i = 0 := by omega
      simpa [h] using h1

namespace Machine

/-- Bit `i` of `mask(W)` is 1 exactly below `W`. -/
@[simp] theorem getLsbD_mask (w i : Nat) : (mask w).getLsbD i = (decide (i < w) && decide (i < 32)) := by
  rw [mask, BitVec.getLsbD_ofNat, Nat.testBit_two_pow_sub_one, Bool.and_comm]

/-- Masking a word is taking it modulo `2^W`. -/
theorem toNat_and_mask (x : Word) (w : Nat) : (x &&& mask w).toNat = x.toNat % 2 ^ w := by
  apply Nat.eq_of_testBit_eq
  intro i
  rw [BitVec.testBit_toNat, BitVec.getLsbD_and, getLsbD_mask, Nat.testBit_mod_two_pow, BitVec.testBit_toNat]
  by_cases h : i < 32
  · simp [h, Bool.and_comm]
  · simp [BitVec.getLsbD_of_ge x i (by omega)]

/-- A masked word is below `2^W`. -/
theorem and_mask_lt (x : Word) (w : Nat) : (x &&& mask w).toNat < 2 ^ w := by
  rw [toNat_and_mask]
  exact Nat.mod_lt _ (Nat.two_pow_pos w)

/-- Bit `i` of `reflect_n(v)` is bit `n − 1 − i` of `v`. -/
theorem getLsbD_reflect (n : Nat) (v : Word) (i : Nat) (hn : n ≤ 32) :
    (reflect n v).getLsbD i = (decide (i < n) && v.getLsbD (n - 1 - i)) := by
  induction n generalizing i with
  | zero => simp [reflect]
  | succ n ih =>
    rw [reflect, BitVec.getLsbD_or, BitVec.getLsbD_shiftLeft, getLsbD_placeBit]
    cases i with
    | zero => simp
    | succ i =>
      rw [Nat.add_sub_cancel, ih i (by omega)]
      by_cases h : i < n
      · simp [h, show i + 1 < 32 by omega, show n - (i + 1) = n - 1 - i by omega]
      · simp [h]

/-- The register after one turn of the loop is below `2^W`. -/
theorem crcBit_lt (w : Nat) (poly acc : Word) (bit : Bool) : (crcBit w poly acc bit).toNat < 2 ^ w := by
  unfold crcBit
  dsimp only
  split
  · rw [BitVec.toNat_xor]
    exact Nat.xor_lt_two_pow (and_mask_lt _ w) (and_mask_lt _ w)
  · exact and_mask_lt _ w

/-- The register after one byte is below `2^W`. -/
theorem crcStep_lt (acc : Word) (b : Byte) (w : Nat) (poly : Word) (refin : Bool) :
    (crcStep acc b w poly refin).toNat < 2 ^ w := crcBit_lt w poly _ _

/-- One turn of the loop in numbers: the register doubled modulo `2^W`, with the polynomial added when the bit shifted
out and the bit entering differ. -/
theorem toNat_crcBit (w : Nat) (poly acc : Word) (bit : Bool) :
    (crcBit w poly acc bit).toNat =
      if acc.toNat.testBit (w - 1) != bit then (2 * acc.toNat % 2 ^ 32 % 2 ^ w) ^^^ (poly.toNat % 2 ^ w)
      else 2 * acc.toNat % 2 ^ 32 % 2 ^ w := by
  have hs : ((acc <<< 1) &&& mask w).toNat = 2 * acc.toNat % 2 ^ 32 % 2 ^ w := by
    rw [toNat_and_mask, BitVec.toNat_shiftLeft, Nat.shiftLeft_eq, Nat.mul_comm]
  unfold crcBit
  dsimp only
  rw [← BitVec.testBit_toNat]
  split
  · rw [BitVec.toNat_xor, hs, toNat_and_mask]
  · exact hs

@[simp] theorem crcSteps_nil (w : Nat) (poly : Word) (refin : Bool) (acc : Word) :
    crcSteps w poly refin acc [] = acc := rfl

@[simp] theorem crcSteps_cons (w : Nat) (poly : Word) (refin : Bool) (acc : Word) (b : Byte) (s : List Byte) :
    crcSteps w poly refin acc (b :: s) = crcSteps w poly refin (crcStep acc b w poly refin) s := rfl

theorem crcSteps_append (w : Nat) (poly : Word) (refin : Bool) (acc : Word) (s t : List Byte) :
    crcSteps w poly refin acc (s ++ t) = crcSteps w poly refin (crcSteps w poly refin acc s) t :=
  List.foldl_append

/-- The additive checksum from any starting value. -/
theorem foldl_add_eq (a : Byte) (s : List Byte) : s.foldl (fun x b => x + b) a = a + sum8 s := by
  induction s generalizing a with
  | nil => simp [sum8]
  | cons b s ih =>
    rw [sum8, List.foldl_cons, List.foldl_cons, ih, ih (0#8 + b)]
    simp [BitVec.add_assoc]

@[simp] theorem sum8_nil : sum8 [] = 0#8 := rfl

@[simp] theorem sum8_cons (b : Byte) (s : List Byte) : sum8 (b :: s) = b + sum8 s := by
  rw [sum8, List.foldl_cons, foldl_add_eq]
  simp

theorem sum8_append (s t : List Byte) : sum8 (s ++ t) = sum8 s + sum8 t := by
  rw [sum8, List.foldl_append, foldl_add_eq, ← sum8]

end Machine

end Sys2Proof
end

