-- ==== Sys2Proof/Laws/Memory.lean ====
section
/-! SUPPORT. The laws of the buffers: a byte read after a write, the canonical form, whole stores and listings. -/

namespace Sys2Proof.Machine

@[simp] theorem Memory.read_nil (k : Nat) : Memory.read [] k = none := rfl

/-- A byte reads back where it was written, and every other index reads as before. -/
@[simp] theorem Memory.read_write (m : Memory) (h : m.wf) (k j : Nat) (v : Byte) :
    (m.write k v).read j = if j = k then some v else m.read j := by
  induction m with
  | nil => by_cases hj : j = k <;> simp [Memory.write, Memory.read, hj]
  | cons c m ih =>
    obtain ⟨a, b⟩ := c
    obtain ⟨hc, hm⟩ := List.pairwise_cons.1 h
    by_cases h1 : k < a
    · by_cases hj : j = k <;> simp [Memory.write, Memory.read, h1, hj]
    · by_cases h2 : k = a
      · subst h2
        by_cases hj : j = k <;> simp [Memory.write, Memory.read, hj]
      · by_cases hj : j = a
        · have hjk : j ≠ k := by omega
          simp only [Memory.write, h1, h2, if_false, Memory.read, hj, if_true]
          rw [if_neg (by omega)]
        · simp [Memory.write, Memory.read, h1, h2, hj, ih hm]

/-- Every entry after a write is the new one or an old one. -/
theorem Memory.mem_write {m : Memory} {k : Nat} {v : Byte} {c : Host.Cell} (h : c ∈ m.write k v) :
    c = (k, v) ∨ c ∈ m := by
  induction m with
  | nil => simpa [Memory.write] using h
  | cons d m ih =>
    simp only [Memory.write] at h
    split at h
    · simpa using h
    · split at h
      · rcases List.mem_cons.1 h with h | h
        · exact .inl h
        · exact .inr (List.mem_cons_of_mem _ h)
      · rcases List.mem_cons.1 h with h | h
        · exact .inr (h ▸ List.mem_cons_self)
        · exact (ih h).imp id (List.mem_cons_of_mem _)

/-- A write keeps the canonical form. -/
theorem Memory.write_wf {m : Memory} (h : m.wf) (k : Nat) (v : Byte) : (m.write k v).wf := by
  induction m with
  | nil => simp [Memory.write]
  | cons c m ih =>
    obtain ⟨hc, hm⟩ := List.pairwise_cons.1 h
    simp only [Memory.write]
    split
    · next hk =>
      refine List.pairwise_cons.2 ⟨fun d hd => ?_, h⟩
      rcases List.mem_cons.1 hd with rfl | hd
      · exact hk
      · exact hk.trans (hc d hd)
    · split
      · next hk => exact List.pairwise_cons.2 ⟨fun d hd => by simpa [hk] using hc d hd, hm⟩
      · next h1 h2 =>
        refine List.pairwise_cons.2 ⟨fun d hd => ?_, ih hm⟩
        rcases Memory.mem_write hd with rfl | hd
        · exact lt_of_le_of_ne (not_lt.1 h1) (Ne.symm h2)
        · exact hc d hd

/-- A write below the size keeps every entry below it. -/
theorem Memory.write_within {m : Memory} {size : Nat} (h : m.within size) {k : Nat} (hk : k < size) (v : Byte) :
    (m.write k v).within size := by
  intro c hc
  rcases Memory.mem_write hc with rfl | hc
  · exact hk
  · exact h c hc

theorem Memory.store_wf {m : Memory} (h : m.wf) (k : Nat) (bs : List Byte) : (m.store k bs).wf := by
  induction bs generalizing m k with
  | nil => exact h
  | cons b bs ih => exact ih (Memory.write_wf h k b) (k + 1)

theorem Memory.store_within {m : Memory} {size : Nat} (h : m.within size) {k : Nat} {bs : List Byte}
    (hk : k + bs.length ≤ size) : (m.store k bs).within size := by
  induction bs generalizing m k with
  | nil => exact h
  | cons b bs ih =>
    simp only [List.length_cons] at hk
    exact ih (Memory.write_within h (by omega) b) (by omega)

/-- What a store leaves: its own bytes at its own indices, every other index as before. -/
theorem Memory.read_store {m : Memory} (h : m.wf) (k j : Nat) (bs : List Byte) :
    (m.store k bs).read j = if k ≤ j ∧ j < k + bs.length then bs[j - k]? else m.read j := by
  induction bs generalizing m k with
  | nil =>
    rw [if_neg (by simp only [List.length_nil]; omega)]
    rfl
  | cons b bs ih =>
    rw [Memory.store, ih (Memory.write_wf h k b), Memory.read_write m h]
    simp only [List.length_cons]
    by_cases h1 : j = k
    · subst h1
      rw [if_neg (by omega), if_pos rfl, if_pos (by omega)]
      simp
    · by_cases h2 : k + 1 ≤ j ∧ j < k + 1 + bs.length
      · rw [if_pos h2, if_pos (by omega)]
        obtain ⟨i, rfl⟩ : ∃ i, j = k + 1 + i := ⟨j - (k + 1), by omega⟩
        rw [show k + 1 + i - (k + 1) = i by omega, show k + 1 + i - k = i + 1 by omega]
        simp
      · rw [if_neg h2, if_neg h1, if_neg (by omega)]

/-- The indices of a listing. -/
theorem Memory.mem_listed {k : Nat} {bs : List Byte} {c : Host.Cell} (h : c ∈ Memory.listed k bs) :
    k ≤ c.1 ∧ c.1 < k + bs.length := by
  induction bs generalizing k with
  | nil => cases h
  | cons b bs ih =>
    rcases List.mem_cons.1 h with rfl | h
    · simp
    · have := ih h
      simp only [List.length_cons]
      omega

theorem Memory.listed_wf (k : Nat) (bs : List Byte) : (Memory.listed k bs).wf := by
  induction bs generalizing k with
  | nil => exact List.Pairwise.nil
  | cons b bs ih => exact List.pairwise_cons.2 ⟨fun c hc => (Memory.mem_listed hc).1, ih (k + 1)⟩

theorem Memory.listed_within {size k : Nat} {bs : List Byte} (h : k + bs.length ≤ size) :
    (Memory.listed k bs).within size := fun _ hc => (Memory.mem_listed hc).2.trans_le h

/-- A listing reads as the bytes it was made of. -/
theorem Memory.read_listed (k j : Nat) (bs : List Byte) :
    (Memory.listed k bs).read j = if k ≤ j then bs[j - k]? else none := by
  induction bs generalizing k with
  | nil => simp [Memory.listed]
  | cons b bs ih =>
    rw [Memory.listed, Memory.read, ih]
    by_cases h1 : j = k
    · simp [h1]
    · by_cases h2 : k + 1 ≤ j
      · rw [if_neg h1, if_pos h2, if_pos (by omega)]
        obtain ⟨i, rfl⟩ : ∃ i, j = k + 1 + i := ⟨j - (k + 1), by omega⟩
        rw [show k + 1 + i - (k + 1) = i by omega, show k + 1 + i - k = i + 1 by omega]
        simp
      · rw [if_neg h1, if_neg h2, if_neg (by omega)]

@[simp] theorem Memory.read_listed_zero (j : Nat) (bs : List Byte) : (Memory.listed 0 bs).read j = bs[j]? := by
  simp [Memory.read_listed]

end Sys2Proof.Machine
end

