-- ==== Sys2Proof/Laws/Operands.lean ====
section
/-! SUPPORT. What resolving and loading operand bytes can give, and the lengths the framer relies on. -/

namespace Sys2Proof.Machine

/-- Known bytes resolve to themselves and draw nothing. -/
@[simp] theorem resolve_known (i : Nat) (bs : List Byte) (d : Nat) :
    resolve i (bs.map ByteSource.known) d = .ok (bs, d) := by
  induction bs generalizing i with
  | nil => rfl
  | cons b bs ih => simp [resolve, prependByte, ih, Except.map]

theorem prependByte_ok {b : Byte} {r : Except Nat (List Byte × Nat)} {bs : List Byte} {d : Nat}
    (h : prependByte b r = .ok (bs, d)) : ∃ cs, bs = b :: cs ∧ r = .ok (cs, d) := by
  cases r with
  | error j => cases h
  | ok p => obtain ⟨cs, d'⟩ := p; cases h; exact ⟨cs, rfl, rfl⟩

/-- As many bytes come out as there are sources. -/
theorem resolve_length {i : Nat} {cs : List ByteSource} {d d' : Nat} {bs : List Byte}
    (h : resolve i cs d = .ok (bs, d')) : bs.length = cs.length := by
  induction cs generalizing i d bs with
  | nil => cases h; rfl
  | cons c cs ih =>
    cases c with
    | known b =>
      obtain ⟨bs, rfl, h'⟩ := prependByte_ok h
      simp [ih h']
    | free =>
      obtain ⟨bs, rfl, h'⟩ := prependByte_ok h
      simp [ih h']
    | unwritten =>
      simp only [resolve] at h
      split at h
      · cases h
      · obtain ⟨bs, rfl, h'⟩ := prependByte_ok h
        simp [ih h']

/-- How many bytes of a shifted read are unwritten. -/
theorem unwrittenBelow_succ (byte : Nat → Option Byte) (n : Nat) :
    unwrittenBelow byte (n + 1) = (if (byte 0).isNone then 1 else 0) + unwrittenBelow (fun j => byte (j + 1)) n := by
  unfold unwrittenBelow
  rw [List.range_succ_eq_map, List.filter_cons, List.filter_map]
  split <;> simp [Nat.add_comm, Function.comp_def]

@[simp] theorem unwrittenBelow_zero (byte : Nat → Option Byte) : unwrittenBelow byte 0 = 0 := rfl

/-- No byte below `n` unwritten, none to count. -/
theorem unwrittenBelow_eq_zero {byte : Nat → Option Byte} {n : Nat} (h : ∀ j < n, (byte j).isSome = true) :
    unwrittenBelow byte n = 0 := by
  rw [unwrittenBelow, List.length_eq_zero_iff, List.filter_eq_nil_iff]
  intro j hj
  have := h j (List.mem_range.1 hj)
  cases hb : byte j <;> simp_all

/-- With `UNINIT_READ` = `draw`, stored bytes resolve to themselves and the unwritten ones to one free value each, in
order. -/
theorem resolve_stored_draw (h : Config.uninitRead = .draw) (byte : Nat → Option Byte) (n i d : Nat) :
    resolve i ((List.range n).map (fun j => storedSource (byte j))) d =
      .ok ((List.range n).map (fun j =>
          match byte j with
          | some b => b
          | none => Config.drawByte (d + unwrittenBelow byte j)), d + unwrittenBelow byte n) := by
  induction n generalizing byte i d with
  | zero => rfl
  | succ n ih =>
    simp only [List.range_succ_eq_map, List.map_cons, List.map_map, Function.comp_def]
    have hr := ih (fun j => byte (j + 1)) (i + 1)
    cases h0 : byte 0 with
    | some b =>
      rw [storedSource, resolve, hr]
      simp [prependByte, Except.map, unwrittenBelow_succ, h0]
    | none =>
      rw [storedSource, resolve, h]
      dsimp only
      rw [hr]
      simp [prependByte, Except.map, unwrittenBelow_succ, h0, Nat.add_assoc]

/-- With `UNINIT_READ` = `fault`, resolving stored bytes stops at the first unwritten one. -/
theorem resolve_stored_fault (h : Config.uninitRead = .fault) (byte : Nat → Option Byte) {n k : Nat} (hk : k < n)
    (hn : byte k = none) (hw : ∀ j < k, (byte j).isSome = true) (i d : Nat) :
    resolve i ((List.range n).map (fun j => storedSource (byte j))) d = .error (i + k) := by
  induction n generalizing byte k i d with
  | zero => cases hk
  | succ n ih =>
    simp only [List.range_succ_eq_map, List.map_cons, List.map_map, Function.comp_def]
    cases k with
    | zero => simp [hn, storedSource, resolve, h]
    | succ k =>
      obtain ⟨b, hb⟩ := Option.isSome_iff_exists.1 (hw 0 (Nat.succ_pos k))
      have hr := ih (fun j => byte (j + 1)) (Nat.lt_of_succ_lt_succ hk) hn (fun j hj => hw (j + 1) (by omega)) (i + 1) d
      rw [hb, storedSource, resolve, hr]
      simp [prependByte, Except.map, Nat.add_assoc, Nat.add_comm 1]

/-- The bus value of bytes given one by one. -/
theorem assemble_map_range (n : Nat) (f : Nat → Byte) : assemble ((List.range n).map f) = busValue n f := by
  induction n generalizing f with
  | zero => rfl
  | succ n ih =>
    have hs : ((List.range n).map (fun j => (f (j + 1)).toNat * 256 ^ (j + 1))).sum =
        256 * ((List.range n).map (fun j => (f (j + 1)).toNat * 256 ^ j)).sum := by
      rw [← List.sum_map_mul_left]
      congr 1
      exact List.map_congr_left fun j _ => by rw [pow_succ]; ring
    rw [List.range_succ_eq_map, List.map_cons, List.map_map, assemble, Function.comp_def, ih, busValue, busValue,
      List.range_succ_eq_map, List.map_cons, List.map_map, List.sum_cons, Function.comp_def, hs]
    generalize ((List.range n).map (fun j => (f (j + 1)).toNat * 256 ^ j)).sum = x
    apply BitVec.eq_of_toNat_eq
    simp only [BitVec.toNat_add, BitVec.toNat_shiftLeft, BitVec.toNat_ofNat, BitVec.toNat_setWidth, Nat.shiftLeft_eq]
    omega

theorem loadPbuf_length {n : Nat} {s : State} {bs : List Byte} {d : Nat} (h : loadPbuf n s = .ok (bs, d)) :
    bs.length = n := by
  simpa using resolve_length h

/-- Written operand bytes load as they are, and draw nothing. -/
theorem loadPbuf_written {n : Nat} {s : State} (h : PbufWritten n s) :
    loadPbuf n s = .ok (pbufBytes n s, s.draws) := by
  have hm : (List.range n).map (pbufSource s) = (pbufBytes n s).map ByteSource.known := by
    rw [pbufBytes, List.map_map]
    refine List.map_congr_left fun k hk => ?_
    obtain ⟨b, hb⟩ := Option.isSome_iff_exists.1 (h k (List.mem_range.1 hk))
    simp [pbufSource, storedSource, hb]
  rw [loadPbuf, hm, resolve_known]

@[simp] theorem pbufBytes_length (n : Nat) (s : State) : (pbufBytes n s).length = n := by simp [pbufBytes]

@[simp] theorem zeros_length (n : Nat) : (zeros n).length = n := by simp [zeros]

@[simp] theorem trailerBytes_length (tr : Trailer) (p : List Byte) :
    (trailerBytes tr p).length = tr.size := by
  cases tr <;> rfl

theorem paddedPayload_length {t : PacketType} {data : List Byte} (h : data.length ≤ t.cap) :
    (paddedPayload t data).length = t.cap := by
  simp [paddedPayload]
  omega

/-- A frame built from data that fits is a packet. -/
theorem buildFrame_isPacket {t : PacketType} {data : List Byte} (h : data.length ≤ t.cap) (seq : Byte) (tr : Trailer) :
    IsPacket (buildFrame t seq data tr) :=
  ⟨t, seq, paddedPayload t data, tr, paddedPayload_length h, rfl⟩

theorem Trailer.size_le (tr : Trailer) : tr.size ≤ 2 := by cases tr <;> decide

/-- The length of a packet: 3 + capacity + 1 or 2. -/
theorem IsPacket.length_le {f : List Byte} (h : IsPacket f) : f.length ≤ Config.fbufSize := by
  obtain ⟨t, seq, p, tr, hp, rfl⟩ := h
  cases t <;> cases tr <;>
    simp [frameHeader, PacketType.cap, Config.capSoh, Config.capStx, Config.fbufSize, Trailer.size] at hp ⊢ <;> omega

/-- At most as many digits as there is fuel. -/
theorem decDigits_length_le (fuel n : Nat) : (decDigits fuel n).length ≤ fuel := by
  induction fuel generalizing n with
  | zero => simp [decDigits]
  | succ fuel ih =>
    simp only [decDigits]
    split
    · simp
    · simpa using ih (n / 10)

end Sys2Proof.Machine
end

