-- ==== Sys2Proof/Laws/Exec.lean ====
section
/-! SUPPORT. What the commands can do, said once: the outcome of each meaning that has more than one, and of `exec`. -/

namespace Sys2Proof.Machine

/-- Feeding a list of bytes changes the two accumulators and nothing else. -/
theorem feedAll_eq (bs : List Byte) (s : State) :
    feedAll bs s =
      { s with
        crcAcc := crcSteps s.width s.crcPoly s.crcRefin s.crcAcc bs
        sumAcc := s.sumAcc + sum8 bs } := by
  induction bs generalizing s with
  | nil => simp [feedAll]
  | cons b bs ih =>
    rw [feedAll, List.foldl_cons, ← feedAll, ih (feed s b)]
    simp [feed, State.width, BitVec.add_assoc]

/-- `CALC_BUF`, when it goes on: out of range, or its bytes fed. -/
theorem execCalcBuf_next {s t : State} (h : execCalcBuf s = .next t) :
    (Config.pbufSize < s.len.toNat ∧ t = errorComplete .lengthRange s) ∨
    ∃ bs d, loadPbuf s.len.toNat s = .ok (bs, d) ∧ t = complete (feedAll bs { s with draws := d }) := by
  unfold execCalcBuf at h
  split at h
  · next hn => exact .inl ⟨hn, by cases h; rfl⟩
  · split at h
    · next bs d hl => exact .inr ⟨bs, d, hl, by cases h; rfl⟩
    · cases h

/-- The outcome of a framing command that built a packet: a packet from data that fits, written to `FBUF`. -/
def Framed (s t : State) : Prop :=
  ∃ ty seq data tr d, data.length ≤ PacketType.cap ty ∧
    t = complete (writeFrame (buildFrame ty seq data tr) { s with draws := d })

/-- `FRAME`, when it goes on: an error, or a packet. -/
theorem execFrame_next {s t : State} (h : execFrame s = .next t) :
    (∃ c, c ≠ ErrCode.none ∧ t = errorComplete c s) ∨ Framed s t := by
  unfold execFrame at h
  split at h
  · exact .inl ⟨.badScheme, by decide, by cases h; rfl⟩
  · next tr _ =>
    split at h
    · exact .inl ⟨.payloadTooLarge, by decide, by cases h; rfl⟩
    · next hcap =>
      split at h
      · next data d hl =>
        refine .inr ⟨s.frameType, s.seq, data, tr, d, ?_, by cases h; rfl⟩
        rw [loadPbuf_length hl]
        omega
      · cases h

/-- `FRAME_YHDR`, when it goes on: an error, or a packet. -/
theorem execFrameYhdr_next {s t : State} (h : execFrameYhdr s = .next t) :
    (∃ c, c ≠ ErrCode.none ∧ t = errorComplete c s) ∨ Framed s t := by
  unfold execFrameYhdr at h
  split at h
  · exact .inl ⟨.badScheme, by decide, by cases h; rfl⟩
  · next tr _ =>
    split at h
    · exact .inr ⟨.stx, 0#8, zeros Config.capStx, tr, s.draws, by simp [PacketType.cap], by cases h; rfl⟩
    · split at h
      · exact .inl ⟨.payloadTooLarge, by decide, by cases h; rfl⟩
      · next hcap =>
        split at h
        · next name d hl =>
          refine .inr ⟨.stx, 0#8, headerData name s.fileSize, tr, d, ?_, by cases h; rfl⟩
          have := loadPbuf_length hl
          simp only [headerData, List.length_append, List.length_singleton, PacketType.cap]
          omega
        · cases h

/-- The accumulators changed, and nothing else but the free values drawn and the completion. -/
def Calculated (s t : State) : Prop :=
  ∃ acc sum d, t = complete { s with crcAcc := acc, sumAcc := sum, draws := d }

/-- Every command, when it goes on: an error completion, or its own kind of effect. -/
theorem exec_next {i : Instr} {s t : State} (h : exec i s = .next t) :
    (∃ c, c ≠ ErrCode.none ∧ t = errorComplete c s) ∨
    (i = .nop ∧ t = complete s) ∨
    ((i = .calcInit ∨ (∃ imm, i = .calcByte imm) ∨ i = .calcBuf) ∧ Calculated s t) ∨
    ((i = .frame ∨ i = .frameYhdr) ∧ Framed s t) ∨
    (i = .seqInc ∧ t = complete { s with seq := s.seq + 1#8 }) := by
  cases i with
  | nop => exact .inr (.inl ⟨rfl, by cases h; rfl⟩)
  | calcInit => exact .inr (.inr (.inl ⟨.inl rfl, _, _, s.draws, by cases h; rfl⟩))
  | calcByte imm => exact .inr (.inr (.inl ⟨.inr (.inl ⟨imm, rfl⟩), _, _, s.draws, by cases h; rfl⟩))
  | calcBuf =>
    rcases execCalcBuf_next h with ⟨_, rfl⟩ | ⟨bs, d, _, rfl⟩
    · exact .inl ⟨.lengthRange, by decide, rfl⟩
    · exact .inr (.inr (.inl ⟨.inr (.inr rfl), _, _, d, by rw [feedAll_eq]⟩))
  | frame => exact (execFrame_next h).imp id fun hf => .inr (.inr (.inl ⟨.inl rfl, hf⟩))
  | frameYhdr => exact (execFrameYhdr_next h).imp id fun hf => .inr (.inr (.inl ⟨.inr rfl, hf⟩))
  | seqInc => exact .inr (.inr (.inr (.inr ⟨rfl, by cases h; rfl⟩)))

/-- No command is refused. -/
theorem exec_ne_refused (i : Instr) (s : State) (r : Refusal) : exec i s ≠ .refused r := by
  cases i with
  | nop => exact nofun
  | calcInit => exact nofun
  | calcByte imm => exact nofun
  | calcBuf =>
    change execCalcBuf s ≠ _
    unfold execCalcBuf
    repeat' split
    all_goals exact nofun
  | frame =>
    change execFrame s ≠ _
    unfold execFrame
    repeat' split
    all_goals exact nofun
  | frameYhdr =>
    change execFrameYhdr s ≠ _
    unfold execFrameYhdr
    repeat' split
    all_goals exact nofun
  | seqInc => exact nofun

/-- A performance that goes on: an error completion, or the decoded command's outcome. -/
theorem performWord_next {w : Word} {s t : State} (h : performWord w s = .next t) :
    (decode w = none ∧ t = errorComplete .illegalCmd s) ∨ ∃ i, decode w = some i ∧ exec i s = .next t := by
  unfold performWord at h
  split at h
  · next i hi => exact .inr ⟨i, hi, h⟩
  · next hi => exact .inl ⟨hi, by cases h; rfl⟩

end Sys2Proof.Machine
end

