-- ==== Sys2Proof/Laws/Bus.lean ====
section
/-! SUPPORT. What a host access, a reset and a whole step can do, said once. -/

namespace Sys2Proof.Machine

@[simp] theorem Access.off_read (off : Nat) (n : AccessSize) : (Access.read off n).off = off := rfl
@[simp] theorem Access.off_write (off : Nat) (n : AccessSize) (v : Word) : (Access.write off n v).off = off := rfl
@[simp] theorem Access.size_read (off : Nat) (n : AccessSize) : (Access.read off n).size = n := rfl
@[simp] theorem Access.size_write (off : Nat) (n : AccessSize) (v : Word) : (Access.write off n v).size = n := rfl
@[simp] theorem Access.dir_read (off : Nat) (n : AccessSize) : (Access.read off n).dir = .read := rfl
@[simp] theorem Access.dir_write (off : Nat) (n : AccessSize) (v : Word) : (Access.write off n v).dir = .write := rfl

@[simp] theorem regAt_offset (r : Reg) : regAt r.offset = some r := by cases r <;> rfl

@[simp] theorem regionOf_offset (r : Reg) : regionOf r.offset = .registers := by cases r <;> rfl

theorem Reg.offset_lt (r : Reg) : r.offset < 0x40 := by cases r <;> decide

/-- A reserved offset names no register (R49). -/
theorem regAt_reserved {off : Nat} (h : 0x040 ≤ off) : regAt off = none := by
  simp only [regAt, List.find?_eq_none]
  intro r _
  have := r.offset_lt
  simp
  omega

/-- A 32-bit read of a register goes on with the register's answer. -/
theorem hostAccess_readReg (r : Reg) (s : State) :
    hostAccess (.read r.offset .b4) s = .next (answerRead (readReg r s).1 (readReg r s).2 s) := by
  have hl : (Access.read r.offset .b4).legal = true := by
    simp only [Access.legal, Access.off_read, regionOf_offset, Access.size_read]
    cases r <;> rfl
  have hw : (Access.read r.offset .b4).inWindow = true := by
    simp only [Access.inWindow, Access.off_read, Access.size_read]
    cases r <;> rfl
  simp [hostAccess, hl, hw, hostRead]

/-- A 32-bit write of a register goes on with the register's write. -/
theorem hostAccess_writeReg (r : Reg) (v : Word) (s : State) :
    hostAccess (.write r.offset .b4 v) s = .next (acknowledge (writeReg r v s)) := by
  have hl : (Access.write r.offset .b4 v).legal = true := by
    simp only [Access.legal, Access.off_write, regionOf_offset, Access.size_write]
    cases r <;> rfl
  have hw : (Access.write r.offset .b4 v).inWindow = true := by
    simp only [Access.inWindow, Access.off_write, Access.size_write]
    cases r <;> rfl
  simp [hostAccess, hl, hw, hostWrite]

theorem AccessSize.bytes_pos (n : AccessSize) : 0 < n.bytes := by cases n <;> decide

theorem regionOf_pbuf {off : Nat} (h : 0x400 ≤ off) (h' : off < 0x800) : regionOf off = .pbuf := by
  rw [regionOf, if_neg (by omega), if_pos h']

theorem regionOf_fbuf {off : Nat} (h : 0x800 ≤ off) : regionOf off = .fbuf := by
  rw [regionOf, if_neg (by omega), if_neg (by omega)]

/-- An aligned access to a buffer is in the window and legal. -/
theorem Access.buffer_legal {a : Access} (h : 0x400 ≤ a.off) (h' : a.off + a.size.bytes ≤ 0x1000)
    (ha : a.off % a.size.bytes = 0) : a.inWindow = true ∧ a.legal = true := by
  refine ⟨decide_eq_true h', ?_⟩
  unfold Access.legal
  by_cases hp : a.off < 0x800
  · simp [regionOf_pbuf h hp, ha]
  · simp [regionOf_fbuf (not_lt.1 hp), ha]

/-- A legal read of the `PBUF` window. -/
theorem hostAccess_readPbuf {off : Nat} {n : AccessSize} (s : State) (h : 0x400 ≤ off) (h' : off + n.bytes ≤ 0x800)
    (ha : off % n.bytes = 0) :
    hostAccess (.read off n) s =
      readBytes off ((List.range n.bytes).map (fun j => pbufSource s (off - 0x400 + j))) s := by
  have hp := n.bytes_pos
  obtain ⟨hw, hl⟩ := Access.buffer_legal (a := .read off n) h (by simp only [Access.off_read, Access.size_read]; omega) ha
  simp [hostAccess, hw, hl, hostRead, regionOf_pbuf h (show off < 0x800 by omega)]

/-- A legal write of the `PBUF` window. -/
theorem hostAccess_writePbuf {off : Nat} {n : AccessSize} (v : Word) (s : State) (h : 0x400 ≤ off)
    (h' : off + n.bytes ≤ 0x800) (ha : off % n.bytes = 0) :
    hostAccess (.write off n v) s = .next (acknowledge (writePbuf (off - 0x400) (laneBytes v n) s)) := by
  have hp := n.bytes_pos
  obtain ⟨hw, hl⟩ :=
    Access.buffer_legal (a := .write off n v) h (by simp only [Access.off_write, Access.size_write]; omega) ha
  simp [hostAccess, hw, hl, hostWrite, regionOf_pbuf h (show off < 0x800 by omega)]

/-- A legal read of the `FBUF` window. -/
theorem hostAccess_readFbuf {off : Nat} {n : AccessSize} (s : State) (h : 0x800 ≤ off) (h' : off + n.bytes ≤ 0x1000)
    (ha : off % n.bytes = 0) :
    hostAccess (.read off n) s =
      readBytes off ((List.range n.bytes).map (fun j => fbufSource s (off - 0x800 + j))) s := by
  obtain ⟨hw, hl⟩ :=
    Access.buffer_legal (a := .read off n) (by simp only [Access.off_read]; omega) h' ha
  simp [hostAccess, hw, hl, hostRead, regionOf_fbuf h]

/-- A read of buffer bytes that goes on changes only the answer and the count of free values. -/
theorem readBytes_next {off : Nat} {srcs : List ByteSource} {s t : State} (h : readBytes off srcs s = .next t) :
    ∃ v d, t = answerRead v d s := by
  unfold readBytes at h
  split at h
  · exact ⟨_, _, by cases h; rfl⟩
  · cases h

/-- A read that goes on changes only the answer and the count of free values. -/
theorem hostRead_next {off : Nat} {n : AccessSize} {s t : State} (h : hostRead off n s = .next t) :
    ∃ v d, t = answerRead v d s := by
  unfold hostRead at h
  split at h
  · split at h
    · exact ⟨_, _, by cases h; rfl⟩
    · exact ⟨_, _, by cases h; rfl⟩
  · exact readBytes_next h
  · exact readBytes_next h

/-- What a legal write can do: nothing, a blocked write, a register write, or bytes stored in `PBUF`. -/
theorem hostWrite_cases (off : Nat) (n : AccessSize) (v : Word) (s : State) :
    hostWrite off n v s = s ∨
    (s.busy = true ∧ hostWrite off n v s = blockedWrite s) ∨
    (∃ r, regAt off = some r ∧ (r.isBlocked && s.busy) = false ∧ hostWrite off n v s = storeReg r v s) ∨
    (s.busy = false ∧ regionOf off = .pbuf ∧
      hostWrite off n v s = { s with pbuf := s.pbuf.store (off - 0x400) (laneBytes v n) }) := by
  unfold hostWrite
  cases hr : regionOf off with
  | registers =>
    cases hra : regAt off with
    | none => exact .inl rfl
    | some r =>
      cases hb : (r.isBlocked && s.busy) with
      | true => exact .inr (.inl ⟨by simp_all, by simp [writeReg, hb]⟩)
      | false => exact .inr (.inr (.inl ⟨r, rfl, hb, by simp [writeReg, hb]⟩))
  | pbuf =>
    cases hb : s.busy with
    | true => exact .inr (.inl ⟨rfl, by simp [writePbuf, hb]⟩)
    | false => exact .inr (.inr (.inr ⟨rfl, rfl, by simp [writePbuf, hb]⟩))
  | fbuf => exact .inl rfl

/-- A host access that goes on: it was not to the block, or it was a read, or a write. -/
theorem hostAccess_next {a : Access} {s t : State} (h : hostAccess a s = .next t) :
    (a.inWindow = false ∧ t = { s with lastResponse := none }) ∨
    (a.inWindow = true ∧ a.legal = true ∧
      ((∃ off n v d, a = .read off n ∧ t = answerRead v d s) ∨
        ∃ off n v, a = .write off n v ∧ t = acknowledge (hostWrite off n v s))) := by
  unfold hostAccess at h
  split at h
  · next hw => exact .inl ⟨by simpa using hw, by cases h; rfl⟩
  · next hw =>
    split at h
    · cases h
    · next hl =>
      refine .inr ⟨by simpa using hw, by simpa using hl, ?_⟩
      cases a with
      | read off n =>
        obtain ⟨v, d, rfl⟩ := hostRead_next h
        exact .inl ⟨off, n, v, d, rfl, rfl⟩
      | write off n v => exact .inr ⟨off, n, v, rfl, by cases h; rfl⟩

/-- A legal `WIDTH` stays legal under a write (R40). -/
theorem warlWidth_legal {v old : BitVec 6} (h : 1 ≤ old.toNat ∧ old.toNat ≤ 32) :
    1 ≤ (warlWidth v old).toNat ∧ (warlWidth v old).toNat ≤ 32 := by
  unfold warlWidth
  split
  · next hv => exact hv
  · exact h

/-- A host access never refuses. -/
theorem hostAccess_ne_refused (a : Access) (s : State) (r : Refusal) : hostAccess a s ≠ .refused r := by
  unfold hostAccess
  split
  · exact nofun
  · split
    · exact nofun
    · cases a with
      | read off n =>
        dsimp only
        unfold hostRead readBytes
        repeat' split
        all_goals exact nofun
      | write off n v => exact nofun

/-- No step refuses: every command of the table has its effect. -/
theorem step_ne_refused (s : State) (r : Refusal) : step s ≠ .refused r := by
  have engine : ∀ u : State, engineStep u ≠ .refused r := by
    intro u
    unfold engineStep performWord execIllegal
    repeat' split
    · exact exec_ne_refused _ u r
    · exact nofun
    · exact nofun
  unfold step nextStep
  split
  · exact engine s
  · next e rest _ =>
    cases e with
    | access a => exact hostAccess_ne_refused a _ r
    | perform => exact engine _
    | reset => exact nofun

/-- A step that goes on, by the agent that takes it. -/
theorem step_next {s t : State} (h : step s = .next t) :
    (∃ a rest, s.schedule = .access a :: rest ∧ hostAccess a (withSchedule rest s) = .next t) ∨
    (∃ rest, s.schedule = .reset :: rest ∧ t = resetBlock (withSchedule rest s)) ∨
    (∃ w rest, (s.schedule = [] ∧ rest = [] ∨ s.schedule = .perform :: rest) ∧ s.pending = some w ∧
      performWord w (withSchedule rest s) = .next t) ∨
    (∃ rest, (s.schedule = [] ∧ rest = [] ∨ s.schedule = .perform :: rest) ∧ s.pending = none ∧
      t = withSchedule rest s) := by
  unfold step nextStep at h
  split at h
  · next hs =>
    have hs' : withSchedule [] s = s := by rw [← hs]; rfl
    unfold engineStep at h
    split at h
    · next w hw => exact .inr (.inr (.inl ⟨w, [], .inl ⟨hs, rfl⟩, hw, by rw [hs']; exact h⟩))
    · next hw => exact .inr (.inr (.inr ⟨[], .inl ⟨hs, rfl⟩, hw, by cases h; exact hs'.symm⟩))
  · next e rest hs =>
    cases e with
    | access a => exact .inl ⟨a, rest, hs, h⟩
    | reset => exact .inr (.inl ⟨rest, hs, by cases h; rfl⟩)
    | perform =>
      simp only [eventStep, engineStep] at h
      split at h
      · next w hw => exact .inr (.inr (.inl ⟨w, rest, .inr hs, hw, h⟩))
      · next hw => exact .inr (.inr (.inr ⟨rest, .inr hs, hw, by cases h; rfl⟩))

end Sys2Proof.Machine
end

