-- ==== Sys2Proof/Laws/Decode.lean ====
section
/-! SUPPORT. The fields of a command word as numbers. -/

namespace Sys2Proof

/-- A field placed where it fits is its number times a power of two. -/
theorem toNat_placeField {n : Nat} (v : BitVec n) (i : Nat) (h : n + i ≤ 32) : (placeField v i).toNat = v.toNat * 2 ^ i := by
  have hv : v.toNat * 2 ^ i < 2 ^ 32 :=
    calc v.toNat * 2 ^ i < 2 ^ n * 2 ^ i := Nat.mul_lt_mul_of_pos_right v.isLt (Nat.two_pow_pos i)
      _ = 2 ^ (n + i) := (Nat.pow_add 2 n i).symm
      _ ≤ 2 ^ 32 := Nat.pow_le_pow_right (by omega) h
  have hn : v.toNat < 2 ^ 32 := lt_of_le_of_lt (Nat.le_mul_of_pos_right _ (Nat.two_pow_pos i)) hv
  rw [placeField, BitVec.toNat_shiftLeft, BitVec.toNat_setWidth, Nat.mod_eq_of_lt hn, Nat.shiftLeft_eq, Nat.mod_eq_of_lt hv]

/-- A low field and a higher one beside it, as one number. -/
theorem toNat_or_placeField {n : Nat} (x : Word) (v : BitVec n) (i : Nat) (hx : x.toNat < 2 ^ i) (h : n + i ≤ 32) :
    (x ||| placeField v i).toNat = x.toNat + v.toNat * 2 ^ i := by
  rw [BitVec.toNat_or, toNat_placeField v i h, Nat.or_comm, Nat.mul_comm, ← Nat.two_pow_add_eq_or_of_lt hx, Nat.add_comm]

theorem toNat_opcodeOf (w : Word) : (opcodeOf w).toNat = w.toNat % 256 := by
  simp [opcodeOf, BitVec.extractLsb'_toNat]

theorem toNat_imm8Of (w : Word) : (imm8Of w).toNat = w.toNat / 256 % 256 := by
  simp [imm8Of, BitVec.extractLsb'_toNat, Nat.shiftRight_eq_div_pow]

theorem toNat_rsvdOf (w : Word) : (rsvdOf w).toNat = w.toNat / 65536 := by
  have := w.isLt
  simp only [rsvdOf, BitVec.extractLsb'_toNat, Nat.shiftRight_eq_div_pow]
  omega

theorem toNat_encode (i : Instr) : (encode i).toNat = i.opcode.toNat + i.imm8.toNat * 256 := by
  rw [encode, toNat_or_placeField _ _ 8 _ (by omega), toNat_placeField _ 0 (by omega)]
  · simp
  · rw [toNat_placeField _ 0 (by omega)]
    simpa using i.opcode.isLt

end Sys2Proof
end

