-- ==== Sys2Proof/Laws/PerInstr.lean ====
section
/-! SUPPORT. Statements made for every command, one lemma per constructor. The family `TableRow`: the word of a command
agrees with its row of the opcode map on every bit of the row's mask (`30_encoding.md` R114). -/

namespace Sys2Proof.Laws.TableRow

/-- The columns Word and Mask of the opcode map (R114). -/
def row : Instr → Word × Word
  | .nop => (0x00000000#32, 0xFFFFFFFF#32)
  | .calcInit => (0x00000001#32, 0xFFFFFFFF#32)
  | .calcByte _ => (0x00000002#32, 0xFFFF00FF#32)
  | .calcBuf => (0x00000003#32, 0xFFFFFFFF#32)
  | .frame => (0x00000004#32, 0xFFFFFFFF#32)
  | .frameYhdr => (0x00000005#32, 0xFFFFFFFF#32)
  | .seqInc => (0x00000006#32, 0xFFFFFFFF#32)

def Statement (i : Instr) : Prop := encode i &&& (row i).2 = (row i).1

theorem nop : Statement .nop := rfl
theorem calcInit : Statement .calcInit := rfl
theorem calcByte (imm : Nat) : Statement (.calcByte imm) := by
  have h : ∀ b : BitVec 8, ((placeField 0x02#8 0 ||| placeField b 8) &&& 0xFFFF00FF#32) = 0x00000002#32 := by decide
  exact h (BitVec.ofNat 8 imm)
theorem calcBuf : Statement .calcBuf := rfl
theorem frame : Statement .frame := rfl
theorem frameYhdr : Statement .frameYhdr := rfl
theorem seqInc : Statement .seqInc := rfl

end Sys2Proof.Laws.TableRow
end

