-- ==== Sys2Proof/Laws/Safety.lean ====
section
/-! SUPPORT. Runs, one step at a time, and what a command leaves of the schedule and the latch. -/

namespace Sys2Proof.Machine

@[simp] theorem reaches_zero (s t : State) : Reaches 0 s t ↔ s = t := by
  show Host.Outcome.next s = Host.Outcome.next t ↔ s = t
  exact ⟨fun h => by cases h; rfl, fun h => by rw [h]⟩

/-- A run of `n + 1` steps that goes on is a step that goes on and a run of `n`. -/
theorem run_succ_next (M : Host.Core) (n : Nat) (s t : M.State) :
    M.run (n + 1) s = .next t ↔ ∃ u, M.step s = .next u ∧ M.run n u = .next t := by
  rw [Host.Core.run.eq_def]
  dsimp only
  cases M.step s with
  | next u =>
    constructor
    · exact fun h => ⟨u, rfl, h⟩
    · rintro ⟨v, hv, h⟩
      cases hv
      exact h
  | fault f =>
    constructor
    · intro h
      cases h
    · rintro ⟨v, hv, -⟩
      cases hv
  | refused r =>
    constructor
    · intro h
      cases h
    · rintro ⟨v, hv, -⟩
      cases hv

theorem reaches_succ (n : Nat) (s t : State) : Reaches (n + 1) s t ↔ ∃ u, step s = .next u ∧ Reaches n u t :=
  run_succ_next Sys2Proof.core n s t

/-- Two runs one after the other. -/
theorem reaches_trans {m n : Nat} {s t u : State} (h : Reaches m s t) (h' : Reaches n t u) : Reaches (m + n) s u := by
  induction m generalizing s with
  | zero =>
    rw [reaches_zero] at h
    rwa [h, Nat.zero_add]
  | succ m ih =>
    obtain ⟨v, hv, hr⟩ := (reaches_succ m s t).1 h
    rw [Nat.succ_add]
    exact (reaches_succ _ s u).2 ⟨v, hv, ih hr⟩

/-- Every command that goes on empties the latch and leaves the steps to come. -/
theorem exec_completes {i : Instr} {s t : State} (h : exec i s = .next t) :
    t.pending = none ∧ t.done = true ∧ t.schedule = s.schedule := by
  rcases exec_next h with ⟨c, _, rfl⟩ | ⟨_, rfl⟩ | ⟨_, acc, sum, d, rfl⟩ | ⟨_, ty, seq, data, tr, d, _, rfl⟩ | ⟨_, rfl⟩ <;>
    exact ⟨rfl, rfl, rfl⟩

end Sys2Proof.Machine
end

