-- ==== Sys2Proof/Tests/Slice0.lean ====
section
/-! SUPPORT. The model's own tests: the check of well-formedness, the decoding of words written out from the opcode map,
one or two single steps for each command and for the bus, their values taken from `95_test_vectors.md`, and for every
statement with hypotheses a state that meets them. -/

namespace Sys2Proof.Tests

open Sys2Proof Sys2Proof.Machine

/-! ### Helpers -/

/-- A component of the next state; `none` where the outcome is no next state. -/
def after {α : Type} (o : Host.Outcome State Fault Refusal) (f : State → α) : Option α :=
  match o with
  | .next t => some (f t)
  | .fault _ => none
  | .refused _ => none

/-- The fault an outcome stops with. -/
def faultOf (o : Host.Outcome State Fault Refusal) : Option Fault :=
  match o with
  | .next _ => none
  | .fault f => some f
  | .refused _ => none

/-- The reset state with the payload bytes `bs` written, `LEN` = `n`, and the framing operands set. -/
def loaded (bs : List Byte) (n : BitVec 16) (t : PacketType) (c : Scheme) (seq : Byte) (size : Word) : State :=
  { State.reset with
    pbuf := Memory.listed 0 bs, len := n, frameType := t, frameScheme := c, seq := seq, fileSize := size }

/-- The reset state with the word `w` pending and the steps `es` to come. -/
def busyWith (w : Word) (es : List Event) : State := { State.reset with pending := some w, schedule := es }

/-- ASCII "ABC". -/
def abc : List Byte := [0x41#8, 0x42#8, 0x43#8]

/-- ASCII "123456789". -/
def digits : List Byte := [0x31#8, 0x32#8, 0x33#8, 0x34#8, 0x35#8, 0x36#8, 0x37#8, 0x38#8, 0x39#8]

/-- ASCII "a.txt". -/
def aTxt : List Byte := [0x61#8, 0x2E#8, 0x74#8, 0x78#8, 0x74#8]

/-! ### Well-formedness: each check refuses an ill-formed term (R117) -/

theorem test_wellFormed_refuses_imm_256 : (Instr.calcByte 256).wellFormed = false := by decide

theorem test_wellFormed_accepts_imm_255 : (Instr.calcByte 255).wellFormed = true := by decide

/-! ### Decoding: words written out from R110 and R114 as RSVD ++ IMM8 ++ OPCODE -/

theorem test_decode_nop : decode (0b0000000000000000#16 ++ 0b00000000#8 ++ 0b00000000#8) = some .nop := by decide

theorem test_decode_calcInit : decode (0b0000000000000000#16 ++ 0b00000000#8 ++ 0b00000001#8) = some .calcInit := by decide

theorem test_decode_calcByte :
    decode (0b0000000000000000#16 ++ 0b00110001#8 ++ 0b00000010#8) = some (.calcByte 0x31) := by decide

theorem test_decode_calcBuf : decode (0b0000000000000000#16 ++ 0b00000000#8 ++ 0b00000011#8) = some .calcBuf := by decide

theorem test_decode_frame : decode (0b0000000000000000#16 ++ 0b00000000#8 ++ 0b00000100#8) = some .frame := by decide

theorem test_decode_frameYhdr : decode (0b0000000000000000#16 ++ 0b00000000#8 ++ 0b00000101#8) = some .frameYhdr := by decide

theorem test_decode_seqInc : decode (0b0000000000000000#16 ++ 0b00000000#8 ++ 0b00000110#8) = some .seqInc := by decide

/-- The illegal words of V27. -/
theorem test_decode_illegal :
    decode 0x00000007#32 = none ∧ decode 0x000000FF#32 = none ∧ decode 0x00000104#32 = none ∧
    decode 0x00000100#32 = none ∧ decode 0x00010000#32 = none ∧ decode 0x80000002#32 = none := by decide

/-- Words V1 and P1 issue. -/
theorem test_encode_words :
    encode (.calcByte 0x31) = 0x00003102#32 ∧ encode (.calcByte 0xFF) = 0x0000FF02#32 ∧ encode .seqInc = 0x00000006#32 := by
  decide

theorem test_decodeTableWord : decodeTableWord 32 0x3102 = some (.calcByte 0x31) := by decide

theorem test_withFetchWord_runs :
    after (step (State.reset.withFetchWord 32 0x3102)) (fun t => (t.crcAcc, t.pending)) =
      some (0x2672#32, none) := by decide

/-! ### The commands -/

/-- V27, first row. -/
theorem test_nop : after (exec .nop (busyWith 0#32 [])) (regValue .status) = some 0x00000002#32 := by decide

/-- V27, an illegal word. -/
theorem test_illegal : after (step (busyWith 0x00000104#32 [])) (regValue .status) = some 0x00000206#32 := by decide

/-- V2, third row. -/
theorem test_calcInit_masks :
    after (exec .calcInit { State.reset with crcInit := 0xFFFFFFFF#32, sumAcc := 0xDD#8 }) (fun t => (t.crcAcc, t.sumAcc)) =
      some (0x0000FFFF#32, 0#8) := by decide

/-- V2, last row: width 4. -/
theorem test_calcInit_width_4 :
    after (exec .calcInit { State.reset with crcInit := 0x1F#32, crcWidth := 4#6 }) (fun t => t.crcAcc) =
      some 0x0000000F#32 := by decide

/-- V1, the second byte. -/
theorem test_calcByte :
    after (exec (.calcByte 0x32) { State.reset with crcAcc := 0x2672#32, sumAcc := 0x31#8 })
      (fun t => (t.crcAcc, t.sumAcc)) = some (0x20B5#32, 0x63#8) := by decide

/-- V12: a width lowered without `CALC_INIT`. -/
theorem test_calcByte_after_width_lowered :
    after (exec (.calcByte 0) { State.reset with crcAcc := 0x1234#32, crcWidth := 8#6, crcPoly := 0x07#32 })
      (regValue .crcResult) = some 0x0000008C#32 := by decide

/-- V7, CRC-32 by `CALC_BUF`: `CRC_ACC` and `CRC_RESULT`. -/
theorem test_calcBuf_crc32 :
    after (exec .calcBuf { loaded digits 9#16 .soh .none 0#8 0#32 with
      crcPoly := 0x04C11DB7#32, crcXorout := 0xFFFFFFFF#32, crcWidth := 32#6, crcRefin := true, crcRefout := true,
      crcAcc := 0xFFFFFFFF#32 }) (fun t => (t.crcAcc, regValue .crcResult t, t.sumAcc)) =
      some (0x9B63D02C#32, 0xCBF43926#32, 0xDD#8) := by decide +kernel

/-- V6: `LEN` = 1025. -/
theorem test_calcBuf_length_range :
    after (exec .calcBuf { State.reset with len := 1025#16, crcAcc := 0x31C3#32 }) (fun t => (t.crcAcc, regValue .status t)) =
      some (0x31C3#32, 0x00000406#32) := by decide

/-- V9: the CRC of the padded payload of "ABC", by the bytes of data and five runs of 25 zero bytes. -/
theorem test_crc16x_padded : crc16x (abc ++ zeros 125) = 0x9325#16 := by
  have h0 : crcSteps 16 0x1021#32 false 0#32 abc = 0x3994#32 := by decide +kernel
  have h1 : crcSteps 16 0x1021#32 false 0x3994#32 (zeros 25) = 0xDA9F#32 := by decide +kernel
  have h2 : crcSteps 16 0x1021#32 false 0xDA9F#32 (zeros 25) = 0x63C7#32 := by decide +kernel
  have h3 : crcSteps 16 0x1021#32 false 0x63C7#32 (zeros 25) = 0x20FA#32 := by decide +kernel
  have h4 : crcSteps 16 0x1021#32 false 0x20FA#32 (zeros 25) = 0x02F5#32 := by decide +kernel
  have h5 : crcSteps 16 0x1021#32 false 0x02F5#32 (zeros 25) = 0x9325#32 := by decide +kernel
  have hz : zeros 125 = zeros 25 ++ (zeros 25 ++ (zeros 25 ++ (zeros 25 ++ zeros 25))) := rfl
  rw [crc16x, crcSteps_append, hz]
  simp only [crcSteps_append, h0, h1, h2, h3, h4, h5]
  decide

/-- V14: the header and the trailer of the SOH packet of "ABC". -/
theorem test_frame_soh_crc :
    after (exec .frame (loaded abc 3#16 .soh .crc16 1#8 0#32)) (fun t => t.fbuf.take 6 ++ (t.fbuf.drop 131).take 3) =
      some [(0, 0x01#8), (1, 0x01#8), (2, 0xFE#8), (3, 0x41#8), (4, 0x42#8), (5, 0x43#8), (131, 0x93#8), (132, 0x25#8),
        (133, 0x00#8)] := by
  have hc : crc16x (paddedPayload .soh abc) = 0x9325#16 := test_crc16x_padded
  have h : exec .frame (loaded abc 3#16 .soh .crc16 1#8 0#32) =
      .next (complete (writeFrame (buildFrame .soh 1#8 abc .crc) (loaded abc 3#16 .soh .crc16 1#8 0#32))) := rfl
  rw [h]
  simp only [after, complete_fbuf, writeFrame_fbuf, buildFrame, trailerBytes, hc]
  decide +kernel

/-- V18: the scheme is checked before the size. -/
theorem test_frame_scheme_first :
    after (exec .frame (loaded [] 129#16 .soh .none 0#8 0#32)) (fun t => (regValue .status t, t.frameLen)) =
      some (0x00000306#32, 0#11) := by decide

/-- V21: the header packet of "a.txt" of size 10, up to its first padding byte and around its trailer, with `TYPE` = SOH
and `SEQ` = 0x37 ignored. -/
theorem test_frameYhdr :
    after (exec .frameYhdr (loaded aTxt 5#16 .soh .additive 0x37#8 10#32)) (fun t =>
      t.fbuf.take 12 ++ (t.fbuf.drop 1026).take 3) =
      some [(0, 0x02#8), (1, 0x00#8), (2, 0xFF#8), (3, 0x61#8), (4, 0x2E#8), (5, 0x74#8), (6, 0x78#8), (7, 0x74#8),
        (8, 0x00#8), (9, 0x31#8), (10, 0x30#8), (11, 0x00#8), (1026, 0x00#8), (1027, 0x50#8), (1028, 0x00#8)] := by decide +kernel

/-- V24: 1022 + 1 + 2 is 1025. -/
theorem test_frameYhdr_overflow :
    after (exec .frameYhdr (loaded [] 1022#16 .soh .crc16 0#8 10#32)) (regValue .status) = some 0x00000106#32 := by decide

/-- V25. -/
theorem test_seqInc_wraps : after (exec .seqInc { State.reset with seq := 0xFF#8 }) (fun t => t.seq) = some 0x00#8 := by decide

/-- E1, E2 and V23: the fixed functions and the decimal digits. -/
theorem test_functions :
    crc16x digits = 0x31C3#16 ∧ sum8 digits = 0xDD#8 ∧
    dec 0#32 = [0x30#8] ∧ dec 10#32 = [0x31#8, 0x30#8] := by decide +kernel

/-! ### The bus, the status register and reset -/

/-- V33: reads right after reset. -/
theorem test_reset_reads :
    [Reg.id, .ctrl, .status, .crcPoly, .crcCfg, .crcResult, .frameCfg].map (fun r => regValue r State.reset) =
      [0x58590100#32, 0#32, 0#32, 0x00001021#32, 0x00000010#32, 0#32, 0#32] := by decide

/-- V32: byte lanes, by a 32-bit write and an 8-bit and a 16-bit read. -/
theorem test_pbuf_lanes :
    after (hostAccess (.write 0x400 .b4 0x00434241#32) State.reset) (fun t =>
      (after (hostAccess (.read 0x401 .b1) t) State.lastResponse, after (hostAccess (.read 0x402 .b2) t) State.lastResponse)) =
      some (some (some (.data 0x42#32)), some (some (.data 0x0043#32))) := by decide

/-- V32: the illegal accesses. -/
theorem test_bus_errors :
    [Access.read 0x000 .b1, .read 0x008 .b2, .read 0x002 .b4, .read 0x401 .b2, .read 0x402 .b4].map
      (fun a => faultOf (hostAccess a State.reset)) =
      [some (.busError 0x000 .b1 .read), some (.busError 0x008 .b2 .read), some (.busError 0x002 .b4 .read),
       some (.busError 0x401 .b2 .read), some (.busError 0x402 .b4 .read)] := by decide

/-- V11, third row from `WIDTH` = 32. -/
theorem test_width_warl :
    after (hostAccess (.write 0x01C .b4 0x00000321#32) { State.reset with crcWidth := 32#6 }) (regValue .crcCfg) =
      some 0x00000320#32 := by decide

/-- V30, right after the blocked write: `BUSY`, `ERR` and `ERRCODE` = 5 in the bits R33 gives them (log entry 18). -/
theorem test_blocked_write :
    after (hostAccess (.write 0x02C .b4 0x64#32) { busyWith 4#32 [] with len := 3#16 }) (fun t =>
      (t.len, regValue .status t)) = some (3#16, 0x00000505#32) := by decide

/-- V28: a W1C write of `DONE` alone. -/
theorem test_status_w1c :
    after (hostAccess (.write 0x008 .b4 2#32) { State.reset with done := true, err := true, errCode := .illegalCmd })
      (regValue .status) = some 0x00000204#32 := by decide

/-- V29, last row. -/
theorem test_irq : irq { State.reset with ieDone := true, ieErr := true, err := true } = true := by decide

/-! ### Witnesses: for every statement with hypotheses, states and operands that meet them -/

/-- Bytes listed from index 0 count as written. -/
theorem pbufWritten_listed {s : State} {bs : List Byte} (h : s.pbuf = Memory.listed 0 bs) :
    PbufWritten bs.length s := by
  intro k hk
  rw [h, Memory.read_listed_zero, List.getElem?_eq_getElem hk]
  rfl

/-- The reset state with `n` bytes 0x41 in `PBUF` and the operands set. -/
def filled (n : Nat) (t : PacketType) (c : Scheme) (size : Word) : State :=
  loaded (List.replicate n 0x41#8) (BitVec.ofNat 16 n) t c 1#8 size

theorem filled_written (n : Nat) (t : PacketType) (c : Scheme) (size : Word) : PbufWritten n (filled n t c size) := by
  have h := pbufWritten_listed (s := filled n t c size) (bs := List.replicate n 0x41#8) rfl
  rwa [List.length_replicate] at h

theorem filled_len {n : Nat} (h : n < 65536) (t : PacketType) (c : Scheme) (size : Word) :
    (filled n t c size).len.toNat = n := by
  show (BitVec.ofNat 16 n).toNat = n
  rw [BitVec.toNat_ofNat]
  exact Nat.mod_eq_of_lt h

theorem witness_OpcodeMapDecodes : 0x07 ≤ (0x00000007#32).toNat % 256 ∧ 0x07 ≤ (0xFFFFFFFF#32).toNat % 256 := by decide

theorem witness_IllegalWordsCompleteWithIllegalCmd :
    decode 0x00010000#32 = none ∧ decode 0x00000007#32 = none ∧ decode 0x00000100#32 = none ∧
    State.reset.pending = none := by decide

theorem witness_StepRunsDecodedCommand :
    decode 0x3102#32 = some (.calcByte 0x31) ∧ (busyWith 0x3102#32 []).pending = some 0x3102#32 ∧
    (busyWith 0x3102#32 []).schedule = [] ∧ (busyWith 0x3102#32 [.perform, .reset]).schedule = .perform :: [.reset] := by
  decide

theorem witness_StepTakesTheScheduledAgent :
    (busyWith 0#32 [r32 0x008]).schedule = .access (.read 0x008 .b4) :: [] ∧
    (busyWith 0#32 [.reset]).schedule = .reset :: [] ∧
    ({ State.reset with schedule := [.perform] }.schedule = .perform :: [] ∧ State.reset.pending = none) ∧
    (State.reset.schedule = [] ∧ State.reset.pending = none) := by decide

theorem reset_canonical : BuffersCanonical State.reset :=
  ⟨List.Pairwise.nil, nofun, List.Pairwise.nil, nofun⟩

/-- A `PBUF` write at the last index goes on. -/
theorem witness_StepKeepsBuffersCanonical :
    BuffersCanonical { State.reset with schedule := [w8 (pbufOffset 1023) 1#8] } ∧
    ∃ t, step { State.reset with schedule := [w8 (pbufOffset 1023) 1#8] } = .next t ∧ t.pbuf = [(1023, 1#8)] :=
  ⟨⟨List.Pairwise.nil, nofun, List.Pairwise.nil, nofun⟩, _, rfl, rfl⟩

/-- A write of an illegal `WIDTH` and one of `STATUS` go on. -/
theorem witness_StepKeepsFieldsLegal :
    FieldsLegal { State.reset with schedule := [w32 0x01C 0#32] } ∧
    (∃ t, step { State.reset with schedule := [w32 0x01C 0#32] } = .next t) ∧
    FieldsLegal { State.reset with err := true, errCode := .badScheme, schedule := [w32 0x008 4#32] } ∧
    ∃ t, step { State.reset with err := true, errCode := .badScheme, schedule := [w32 0x008 4#32] } = .next t :=
  ⟨⟨by decide, by decide, by decide⟩, ⟨_, rfl⟩, ⟨by decide, by decide, by decide⟩, ⟨_, rfl⟩⟩

/-- The state that holds the packet of an empty SOH payload. -/
def holdsPacket : State := writeFrame (buildFrame .soh 1#8 [] .checksum) State.reset

theorem holdsPacket_holds : FbufHoldsPacket holdsPacket :=
  .inr ⟨_, buildFrame_isPacket (by decide) 1#8 .checksum, by decide +kernel, rfl⟩

/-- A pending `FRAME` performed on empty buffers, and a `NOP` on a packet. -/
theorem witness_StepKeepsPacketInFbuf :
    FbufHoldsPacket { State.reset with pending := some 4#32, frameScheme := .additive } ∧
    (∃ t, step { State.reset with pending := some 4#32, frameScheme := .additive } = .next t) ∧
    FbufHoldsPacket holdsPacket ∧ ∃ t, step holdsPacket = .next t :=
  ⟨.inl ⟨rfl, rfl⟩, ⟨_, rfl⟩, holdsPacket_holds, ⟨_, rfl⟩⟩

/-- One state for each of the three ways to go on: the performance after two reads, a reset after one, and a bus error. -/
theorem witness_PendingCommandIsPerformed :
    ((busyWith 6#32 [r32 0x008, r32 0x008, .perform]).pending = some 6#32 ∧
      after (core.run 3 (busyWith 6#32 [r32 0x008, r32 0x008, .perform])) (fun t => (State.pending t, State.seq t)) =
        some (none, 1#8)) ∧
    ((busyWith 6#32 [r32 0x008, .reset]).pending = some 6#32 ∧
      after (core.run 1 (busyWith 6#32 [r32 0x008, .reset])) (fun t => (State.pending t, State.schedule t)) =
        some (some 6#32, [.reset])) ∧
    (busyWith 6#32 [r8 0x008]).pending = some 6#32 ∧
      faultOf (step (busyWith 6#32 [r8 0x008])) = some (.busError 0x008 .b1 .read) := by decide

/-- One state for each of the three ways to go on. -/
theorem witness_BusyEndsOnlyByPerformanceOrReset :
    (busyWith 6#32 [r32 0x008]).pending = some 6#32 ∧ (∃ t, step (busyWith 6#32 [r32 0x008]) = .next t ∧ t.pending = some 6#32) ∧
    (∃ t, step (busyWith 6#32 []) = .next t ∧ t.pending = none ∧ t.done = true) ∧
    ∃ t, step (busyWith 6#32 [.reset]) = .next t ∧ t.pending = none ∧ t.done = false :=
  ⟨rfl, ⟨_, rfl, rfl⟩, ⟨_, rfl, rfl, rfl⟩, ⟨_, rfl, rfl, rfl⟩⟩

theorem witness_CalcByteFeedsItsByte : 0 ≤ 255 ∧ 255 ≤ 255 := by decide

/-- `LEN` = 0, and `LEN` = 1024 with every byte written. -/
theorem witness_CalcBufFeedsLenBytes :
    (State.reset.len.toNat ≤ 1024 ∧ PbufWritten State.reset.len.toNat State.reset) ∧
    (filled 1024 .soh .none 0#32).len.toNat ≤ 1024 ∧
    PbufWritten (filled 1024 .soh .none 0#32).len.toNat (filled 1024 .soh .none 0#32) := by
  refine ⟨⟨by decide, nofun⟩, ?_⟩
  rw [filled_len (by decide)]
  exact ⟨le_refl _, filled_written 1024 .soh .none 0#32⟩

/-- A full SOH payload with the checksum, and a full STX payload with the CRC. -/
theorem witness_FrameBuildsThePacket :
    ((filled 128 .soh .additive 0#32).frameScheme = .additive ∧
      (filled 128 .soh .additive 0#32).len.toNat ≤
        (if (filled 128 .soh .additive 0#32).frameType = .soh then 128 else 1024) ∧
      PbufWritten (filled 128 .soh .additive 0#32).len.toNat (filled 128 .soh .additive 0#32)) ∧
    (filled 1024 .stx .crc16 0#32).frameScheme = .crc16 ∧
      (filled 1024 .stx .crc16 0#32).len.toNat ≤ (if (filled 1024 .stx .crc16 0#32).frameType = .soh then 128 else 1024) ∧
      PbufWritten (filled 1024 .stx .crc16 0#32).len.toNat (filled 1024 .stx .crc16 0#32) := by
  rw [filled_len (by decide), filled_len (by decide)]
  exact ⟨⟨rfl, by decide, filled_written 128 .soh .additive 0#32⟩, rfl, by decide, filled_written 1024 .stx .crc16 0#32⟩

/-- The longest filename for size 10, with either scheme (V24). -/
theorem witness_HeaderPacketHoldsNameAndSize :
    ((filled 1021 .soh .additive 10#32).frameScheme = .additive ∧ (filled 1021 .soh .additive 10#32).len ≠ 0#16 ∧
      (filled 1021 .soh .additive 10#32).len.toNat + 1 + (dec (filled 1021 .soh .additive 10#32).fileSize).length ≤ 1024 ∧
      PbufWritten (filled 1021 .soh .additive 10#32).len.toNat (filled 1021 .soh .additive 10#32)) ∧
    (filled 1021 .soh .crc16 10#32).frameScheme = .crc16 ∧ (filled 1021 .soh .crc16 10#32).len ≠ 0#16 ∧
      (filled 1021 .soh .crc16 10#32).len.toNat + 1 + (dec (filled 1021 .soh .crc16 10#32).fileSize).length ≤ 1024 ∧
      PbufWritten (filled 1021 .soh .crc16 10#32).len.toNat (filled 1021 .soh .crc16 10#32) := by
  have hd : (dec 10#32).length = 2 := by decide
  have hz : BitVec.ofNat 16 1021 ≠ 0#16 := by decide
  rw [filled_len (by decide), filled_len (by decide)]
  exact ⟨⟨rfl, hz, by show 1021 + 1 + (dec 10#32).length ≤ 1024; rw [hd], filled_written 1021 .soh .additive 10#32⟩, rfl, hz,
    by show 1021 + 1 + (dec 10#32).length ≤ 1024; rw [hd], filled_written 1021 .soh .crc16 10#32⟩

theorem witness_FooterPacketIsZero :
    ((loaded [] 0#16 .soh .additive 0#8 0#32).frameScheme = .additive ∧ (loaded [] 0#16 .soh .additive 0#8 0#32).len = 0#16) ∧
    (loaded [] 0#16 .soh .crc16 0#8 10#32).frameScheme = .crc16 ∧ (loaded [] 0#16 .soh .crc16 0#8 10#32).len = 0#16 := by
  decide

theorem witness_RepeatedSeqIncWraps : 1 ≤ 1 ∧ 1 ≤ 256 := by decide

/-- One state for each check, just past its bound (V18, V24, V6). -/
theorem witness_CommandChecksInOrder :
    decode 0x00000007#32 = none ∧
    (loaded [] 3#16 .soh .none 0#8 0#32).frameScheme = .none ∧
    (loaded [] 3#16 .soh .reserved 0#8 0#32).frameScheme = .reserved ∧
    (if (loaded [] 129#16 .soh .additive 0#8 0#32).frameType = .soh then 128 else 1024) <
      (loaded [] 129#16 .soh .additive 0#8 0#32).len.toNat ∧
    (if (loaded [] 1025#16 .stx .crc16 0#8 0#32).frameType = .soh then 128 else 1024) <
      (loaded [] 1025#16 .stx .crc16 0#8 0#32).len.toNat ∧
    ((loaded [] 1022#16 .soh .crc16 0#8 10#32).len ≠ 0#16 ∧
      1024 < (loaded [] 1022#16 .soh .crc16 0#8 10#32).len.toNat + 1 +
        (dec (loaded [] 1022#16 .soh .crc16 0#8 10#32).fileSize).length) ∧
    1024 < (loaded [] 1025#16 .soh .none 0#8 0#32).len.toNat := by decide

/-- For each of the three commands, a state whose bytes 3 and 4 of `LEN` = 5 have never been written. -/
theorem witness_UnwrittenOperandFollowsUninitRead :
    ∀ c ∈ [Scheme.additive, .crc16],
      (loaded abc 5#16 .soh c 0#8 10#32).len.toNat ≤ 1024 ∧
      (loaded abc 5#16 .soh c 0#8 10#32).len.toNat ≤ (loaded abc 5#16 .soh c 0#8 10#32).frameType.cap ∧
      (loaded abc 5#16 .soh c 0#8 10#32).len.toNat + 1 + (dec (loaded abc 5#16 .soh c 0#8 10#32).fileSize).length ≤ 1024 ∧
      3 < (loaded abc 5#16 .soh c 0#8 10#32).len.toNat ∧
      (loaded abc 5#16 .soh c 0#8 10#32).pbuf.read 3 = none ∧
      (loaded abc 5#16 .soh c 0#8 10#32).pbuf.read 4 = none ∧ PbufWritten 3 (loaded abc 5#16 .soh c 0#8 10#32) := by
  unfold PbufWritten
  decide

/-- Two states that differ in everything `FRAME` does not read, and two that differ in `TYPE` and `SEQ`, which
`FRAME_YHDR` does not read. -/
theorem witness_FramingDependsOnlyOnOperands :
    PbufWritten 3 (loaded abc 3#16 .soh .crc16 1#8 0#32) ∧
    (∀ k < 3, (loaded abc 3#16 .soh .crc16 1#8 0#32).pbuf.read k = (loaded (abc ++ digits) 3#16 .stx .crc16 2#8 0#32).pbuf.read k) ∧
    (let s := loaded abc 3#16 .soh .crc16 1#8 0#32
     let s' := { loaded (abc ++ digits) 3#16 .soh .crc16 1#8 7#32 with crcPoly := 0x8005#32, err := true }
     s.frameType = s'.frameType ∧ s.seq = s'.seq ∧ s.frameScheme = s'.frameScheme ∧ s.len = s'.len) ∧
    (let s := loaded abc 3#16 .soh .crc16 1#8 0#32
     let s' := loaded (abc ++ digits) 3#16 .stx .crc16 2#8 0#32
     s.fileSize = s'.fileSize ∧ s.frameScheme = s'.frameScheme ∧ s.len = s'.len) := by
  unfold PbufWritten
  decide

theorem witness_CommandsWriteOnlyTheirResults :
    (∃ t, exec .seqInc { State.reset with err := true, errCode := .badScheme } = .next t) ∧
    (∃ t, exec .calcInit State.reset = .next t) ∧
    (∃ t, exec .frame (loaded [] 0#16 .soh .additive 1#8 0#32) = .next t) := ⟨⟨_, rfl⟩, ⟨_, rfl⟩, ⟨_, rfl⟩⟩

theorem witness_HostAccessKeepsOperandsWhileBusy :
    (busyWith 4#32 []).pending.isSome = true ∧
    (∃ t, hostAccess (.write 0x02C .b4 1#32) (busyWith 4#32 []) = .next t) ∧
    ∃ t, hostAccess (.write 0x7FF .b1 1#32) (busyWith 4#32 []) = .next t := ⟨rfl, ⟨_, rfl⟩, ⟨_, rfl⟩⟩

theorem witness_ReadsChangeNoState :
    (∃ t, hostAccess (.read 0x000 .b4) State.reset = .next t) ∧ ∃ t, hostAccess (.read 0xFFF .b1) State.reset = .next t :=
  ⟨⟨_, rfl⟩, ⟨_, rfl⟩⟩

theorem witness_RegisterReadsAnswer : (busyWith 4#32 []).pending.isSome = true := by decide

theorem witness_RegisterWritesStoreFields : State.reset.pending = none := rfl

/-- Also a state whose `WIDTH` stays at each bound of its range. -/
theorem witness_WidthIsWarl :
    State.reset.pending = none ∧
    (∀ w ∈ [1#6, 32#6], 1 ≤ ({ State.reset with crcWidth := w } : State).crcWidth.toNat ∧
      ({ State.reset with crcWidth := w } : State).crcWidth.toNat ≤ 32) ∧
    ∃ t, step { State.reset with schedule := [w32 0x01C 33#32] } = .next t ∧ t.crcWidth = 16#6 :=
  ⟨rfl, by decide, _, rfl, rfl⟩

/-- The bounds of each range of offsets. -/
theorem witness_BlockedWritesRecordBusyViolation :
    (busyWith 4#32 []).pending.isSome = true ∧
    (0x400 ≤ 0x7FF ∧ 0x7FF + AccessSize.b1.bytes ≤ 0x800 ∧ 0x7FF % AccessSize.b1.bytes = 0) ∧
    (0x400 ≤ 0x7FC ∧ 0x7FC + AccessSize.b4.bytes ≤ 0x800 ∧ 0x7FC % AccessSize.b4.bytes = 0) ∧
    (0x040 ≤ 0x040 ∧ 0x3FC ≤ 0x3FC ∧ 0x040 % 4 = 0 ∧ 0x3FC % 4 = 0) ∧
    (0x800 ≤ 0x800 ∧ 0xFFE + AccessSize.b2.bytes ≤ 0x1000 ∧ 0xFFE % AccessSize.b2.bytes = 0) := by decide

theorem witness_ReservedOffsetsAndBitsAreInert :
    (0x040 ≤ 0x040 ∧ 0x040 ≤ 0x3FC ∧ 0x040 % 4 = 0) ∧ (0x040 ≤ 0x3FC ∧ 0x3FC ≤ 0x3FC ∧ 0x3FC % 4 = 0) := by decide

theorem witness_PbufWriteThenRead :
    State.reset.pending = none ∧ Memory.wf State.reset.pbuf ∧
    (0x400 ≤ 0x400 ∧ 0x400 + AccessSize.b4.bytes ≤ 0x800 ∧ 0x400 % AccessSize.b4.bytes = 0) ∧
    (0x400 ≤ 0x7FE ∧ 0x7FE + AccessSize.b2.bytes ≤ 0x800 ∧ 0x7FE % AccessSize.b2.bytes = 0) := by decide

/-- Written bytes at both ends of `PBUF`, on an idle block and on a busy one, read at another width than they were written. -/
theorem witness_PbufReadsAnswerWrittenBytes :
    (0x400 ≤ 0x400 ∧ 0x400 + AccessSize.b2.bytes ≤ 0x800 ∧ 0x400 % AccessSize.b2.bytes = 0) ∧
    (∀ j < AccessSize.b2.bytes, ((loaded abc 3#16 .soh .none 0#8 0#32).pbuf.read (0x400 - 0x400 + j)).isSome = true) ∧
    (0x400 ≤ 0x7FF ∧ 0x7FF + AccessSize.b1.bytes ≤ 0x800 ∧ 0x7FF % AccessSize.b1.bytes = 0) ∧
    (∀ j < AccessSize.b1.bytes,
      (({ busyWith 4#32 [] with pbuf := [(1023, 0x5A#8)] } : State).pbuf.read (0x7FF - 0x400 + j)).isSome = true) ∧
    after (hostAccess (.read 0x7FF .b1) { busyWith 4#32 [] with pbuf := [(1023, 0x5A#8)] }) State.lastResponse =
      some (some (.data 0x5A#32)) := by decide

/-- An aligned access above the window, and a misaligned one that leaves it. -/
theorem witness_AccessOutsideWindowChangesNothing :
    0x1000 < (Access.read 0x1000 .b1).off + (Access.read 0x1000 .b1).size.bytes ∧
    0x1000 < (Access.write 0xFFE .b4 0#32).off + (Access.write 0xFFE .b4 0#32).size.bytes := by decide

/-- Each side of the rule at the ends of the two kinds of region. -/
theorem witness_BusErrorExactlyWhenIllegal :
    (Access.read 0x3FE .b4).off + (Access.read 0x3FE .b4).size.bytes ≤ 0x1000 ∧
    (Access.write 0xFFC .b4 0#32).off + (Access.write 0xFFC .b4 0#32).size.bytes ≤ 0x1000 ∧
    faultOf (hostAccess (.read 0x3FE .b4) State.reset) = some (.busError 0x3FE .b4 .read) ∧
    faultOf (hostAccess (.write 0xFFC .b4 0#32) State.reset) = none := by decide

theorem witness_FbufWindowIgnoresWrites :
    (0x800 ≤ 0x800 ∧ 0x800 + AccessSize.b1.bytes ≤ 0x1000 ∧ 0x800 % AccessSize.b1.bytes = 0) ∧
    (0x800 ≤ 0xFFC ∧ 0xFFC + AccessSize.b4.bytes ≤ 0x1000 ∧ 0xFFC % AccessSize.b4.bytes = 0) := by decide

/-- A read just above index 1028, the word at 0xC04 whose first byte is written, and reads at 0x800 and 0xC04 while busy. -/
theorem witness_FbufWindowReads :
    (0x800 + 1029 ≤ 0xC05 ∧ 0xC05 + AccessSize.b1.bytes ≤ 0x1000 ∧ 0xC05 % AccessSize.b1.bytes = 0) ∧
    (({ State.reset with fbuf := [(1028, 0x11#8)] } : State).pending = none ∧
      (∀ j < AccessSize.b4.bytes, 0xC04 - 0x800 + j ≤ 1028 →
        (({ State.reset with fbuf := [(1028, 0x11#8)] } : State).fbuf.read (0xC04 - 0x800 + j)).isSome = true) ∧
      after (hostAccess (.read 0xC04 .b4) { State.reset with fbuf := [(1028, 0x11#8)] }) State.lastResponse =
        some (some (.data 0x00000011#32))) ∧
    (busyWith 4#32 []).pending.isSome = true ∧
    ∀ n ∈ [AccessSize.b1, .b2, .b4], ∀ off ∈ [0x800, 0xC04],
      0x800 ≤ off ∧ off + n.bytes ≤ 0x1000 ∧ off % n.bytes = 0 ∧ off ≤ 0x800 + 1028 := by decide

/-- At both ends of `PBUF` and of `FBUF`, at every width, bytes never written; and a word of which two bytes are. -/
theorem witness_UnwrittenByteReads :
    (∀ n ∈ [AccessSize.b1, .b2, .b4], ∀ off ∈ [0x400, 0x7FC],
      off % n.bytes = 0 ∧ 0x400 ≤ off ∧ off + n.bytes ≤ 0x800 ∧ ∃ j < n.bytes, State.reset.pbuf.read (off - 0x400 + j) = none) ∧
    (∀ n ∈ [AccessSize.b1, .b2, .b4], ∀ off ∈ [0x800, 0xC04],
      off % n.bytes = 0 ∧ 0x800 ≤ off ∧ off + n.bytes ≤ 0x1000 ∧ State.reset.pending = none ∧
        ∃ j < n.bytes, (if off - 0x800 + j ≤ 1028 then State.reset.fbuf.read (off - 0x800 + j) else some 0#8) = none) ∧
    unwrittenBelow (fun j => ({ State.reset with pbuf := [(0, 1#8), (2, 3#8)] } : State).pbuf.read (0x400 - 0x400 + j))
      AccessSize.b4.bytes = 2 := by decide

/-- For each clause: a second error, a reset, a clearing write; then a first error; a state without an error. -/
theorem witness_FirstErrorSticks :
    (∃ t, step { State.reset with err := true, errCode := .badScheme, pending := some 7#32 } = .next t ∧
      t.errCode = .badScheme) ∧
    (∃ t, step { State.reset with err := true, errCode := .badScheme, schedule := [.reset] } = .next t ∧ t.err = false) ∧
    (∃ t, step { State.reset with err := true, errCode := .badScheme, schedule := [w32 0x008 4#32] } = .next t ∧
      t.err = false) ∧
    State.reset.err = false ∧ State.reset.errCode = ErrCode.none ∧
    ∃ t, step { State.reset with pending := some 0#32 } = .next t ∧ t.err = false :=
  ⟨⟨_, rfl, rfl⟩, ⟨_, rfl, rfl⟩, ⟨_, rfl, rfl⟩, rfl, rfl, ⟨_, rfl, rfl⟩⟩

theorem witness_IssueLatchesAnyWord :
    State.reset.pending = none ∧ (busyWith 4#32 []).pending.isSome = true ∧
    ∃ t, hostAccess (.read 0x008 .b4) (busyWith 4#32 []) = .next t := ⟨rfl, rfl, _, rfl⟩

theorem witness_CrcStepIsBitSerial : (1 ≤ 1 ∧ 1 ≤ 32) ∧ (1 ≤ 32 ∧ 32 ≤ 32) := by decide

theorem witness_CrcFinalBits : (1 ≤ 1 ∧ 1 ≤ 32) ∧ (1 ≤ 32 ∧ 32 ≤ 32) := by decide

theorem witness_ReflectionReversesBits : 0 ≤ 32 ∧ 32 ≤ 32 ∧ 0 < 8 ∧ 7 < 8 := by decide

/-- The bytes "ABC" one by one, and by `CALC_BUF`, under the reset configuration. -/
theorem witness_EngineComputesTheFunctions :
    [Instr.calcByte 0x41, .calcByte 0x42, .calcByte 0x43] = abc.map (fun b => Instr.calcByte b.toNat) ∧
    ((loaded abc 3#16 .soh .none 0#8 0#32).len.toNat ≤ 1024 ∧
      PbufWritten (loaded abc 3#16 .soh .none 0#8 0#32).len.toNat (loaded abc 3#16 .soh .none 0#8 0#32) ∧
      abc = pbufBytes (loaded abc 3#16 .soh .none 0#8 0#32).len.toNat (loaded abc 3#16 .soh .none 0#8 0#32)) ∧
    State.reset.crcPoly = 0x1021#32 ∧ State.reset.crcInit = 0#32 ∧ State.reset.crcXorout = 0#32 ∧
    State.reset.crcWidth = 16#6 ∧ State.reset.crcRefin = false ∧ State.reset.crcRefout = false := by
  unfold PbufWritten
  decide

theorem witness_DecimalDigitsSpellTheSize : 10#32 ≠ 0#32 ∧ 0x31#8 ∈ dec 10#32 := by decide

theorem witness_ThirdHeaderByteIsComplement : FbufHoldsPacket holdsPacket ∧ holdsPacket.frameLen ≠ 0#11 :=
  ⟨holdsPacket_holds, by decide +kernel⟩

/-- A schedule of `RUN SEQ_INC` with two early reads, and the outcome of the performance. -/
theorem witness_RunCommandPerformsIt :
    Instr.seqInc.WellFormed ∧ State.reset.pending = none ∧
    ({ State.reset with schedule := runCommand .seqInc 2 ++ [.reset] } : State).schedule = runCommand .seqInc 2 ++ [.reset] ∧
    ∃ t, exec .seqInc { State.reset with
      pending := some (encode .seqInc), schedule := [r32 Reg.status.offset, .reset] } = .next t :=
  ⟨rfl, rfl, rfl, _, rfl⟩

/-- The two orders of V31 from `SEQ` = 0xFF. -/
theorem witness_IssueThenWriteAdmitsBothOrders :
    State.reset.pending = none ∧ State.reset.err = false ∧
    after (core.run 3 { State.reset with seq := 0xFF#8, schedule := issue .seqInc ++ [.perform, w32 Reg.seq.offset 5#32] })
      (fun t => (State.seq t, regValue .status t)) = some (0x05#8, 0x00000002#32) ∧
    after (core.run 3 { State.reset with seq := 0xFF#8, schedule := issue .seqInc ++ [w32 Reg.seq.offset 5#32, .perform] })
      (fun t => (State.seq t, regValue .status t)) = some (0x00#8, 0x00000506#32) := by decide

end Sys2Proof.Tests
end

section
/-! PROOF. What one step can do to the state, as one flat list of the shared updates it is made of, and what that means
for the buffers, `WIDTH` and the error record: the invariants of every step (`10_state.md` R33, R40, R50, R51). -/

namespace Sys2Proof.Machine

/-- What an agent's step makes of `s`, as the shared update that does it, with the guard under which it happens. -/
inductive StepEffect (s : State) : State → Prop
  | reset : StepEffect s (resetBlock s)
  | idle : s.busy = false → StepEffect s s
  | outsideWindow : StepEffect s { s with lastResponse := none }
  | answered (v : Word) (d : Nat) : StepEffect s (answerRead v d s)
  | ignored : StepEffect s (acknowledge s)
  | blocked : s.busy = true → StepEffect s (acknowledge (recordError .busyViolation s))
  | storedReg (r : Reg) (v : Word) : (r.isBlocked && s.busy) = false → StepEffect s (acknowledge (storeReg r v s))
  | storedPbuf (k : Nat) (bs : List Byte) : s.busy = false → k + bs.length ≤ Config.pbufSize →
      StepEffect s (acknowledge { s with pbuf := s.pbuf.store k bs })
  | failed (c : ErrCode) : s.busy = true → c ≠ .none → StepEffect s (errorComplete c s)
  | completed : s.busy = true → StepEffect s (complete s)
  | calculated (acc : Word) (sum : Byte) (d : Nat) : s.busy = true →
      StepEffect s (complete { s with crcAcc := acc, sumAcc := sum, draws := d })
  | framed (f : List Byte) (d : Nat) : s.busy = true → IsPacket f →
      StepEffect s (complete (writeFrame f { s with draws := d }))
  | seqInc : s.busy = true → StepEffect s (complete { s with seq := s.seq + 1#8 })

@[simp] theorem laneBytes_length (v : Word) (n : AccessSize) : (laneBytes v n).length = n.bytes := by simp [laneBytes]

/-- A legal access to the `PBUF` window does not leave it: an aligned access never crosses the end of a region (R84). -/
theorem Access.pbuf_fits {a : Access} (hl : a.legal = true) (hr : regionOf a.off = .pbuf) :
    a.off - 0x400 + a.size.bytes ≤ Config.pbufSize := by
  have ha : a.off % a.size.bytes = 0 := by simpa [Access.legal, hr] using hl
  have hoff : 0x400 ≤ a.off ∧ a.off < 0x800 := by
    unfold regionOf at hr
    split at hr
    · cases hr
    · split at hr
      · omega
      · cases hr
  simp only [Config.pbufSize]
  cases hn : a.size <;> simp only [hn, AccessSize.bytes] at ha ⊢ <;> omega

/-- A host access that goes on makes one of the updates. -/
theorem hostAccess_effect {a : Access} {s t : State} (h : hostAccess a s = .next t) : StepEffect s t := by
  rcases hostAccess_next h with ⟨_, rfl⟩ | ⟨_, hl, ⟨off, n, v, d, rfl, rfl⟩ | ⟨off, n, v, rfl, rfl⟩⟩
  · exact .outsideWindow
  · exact .answered v d
  · rcases hostWrite_cases off n v s with hw | ⟨hb, hw⟩ | ⟨r, _, hb, hw⟩ | ⟨hb, hr, hw⟩ <;> rw [hw]
    · exact .ignored
    · exact .blocked hb
    · exact .storedReg r v hb
    · exact .storedPbuf _ _ hb (by simpa using Access.pbuf_fits hl hr)

/-- A performance that goes on makes one of the updates. -/
theorem performWord_effect {w : Word} {s t : State} (hb : s.busy = true) (h : performWord w s = .next t) :
    StepEffect s t := by
  rcases performWord_next h with ⟨_, rfl⟩ | ⟨i, _, hi⟩
  · exact .failed .illegalCmd hb nofun
  · rcases exec_next hi with ⟨c, hc, rfl⟩ | ⟨_, rfl⟩ | ⟨_, acc, sum, d, rfl⟩ | ⟨_, ty, seq, data, tr, d, hd, rfl⟩ | ⟨_, rfl⟩
    · exact .failed c hb hc
    · exact .completed hb
    · exact .calculated acc sum d hb
    · exact .framed _ d hb (buildFrame_isPacket hd seq tr)
    · exact .seqInc hb

/-- A step that goes on moves the schedule on and makes one of the updates. -/
theorem step_effect {s t : State} (h : step s = .next t) : ∃ rest, StepEffect (withSchedule rest s) t := by
  rcases step_next h with ⟨a, rest, _, ha⟩ | ⟨rest, _, rfl⟩ | ⟨w, rest, _, hp, hw⟩ | ⟨rest, _, hp, rfl⟩
  · exact ⟨rest, hostAccess_effect ha⟩
  · exact ⟨rest, .reset⟩
  · exact ⟨rest, performWord_effect (by simp [State.busy, hp]) hw⟩
  · exact ⟨rest, .idle (by simp [State.busy, hp])⟩

/-! ### What a register write leaves unchanged -/

@[simp] theorem storeReg_pbuf (r : Reg) (v : Word) (s : State) : (storeReg r v s).pbuf = s.pbuf := by cases r <;> rfl
@[simp] theorem storeReg_fbuf (r : Reg) (v : Word) (s : State) : (storeReg r v s).fbuf = s.fbuf := by cases r <;> rfl
@[simp] theorem storeReg_frameLen (r : Reg) (v : Word) (s : State) : (storeReg r v s).frameLen = s.frameLen := by
  cases r <;> rfl

/-- Only a write of `CRC_CFG` touches `WIDTH`, and it is WARL (R40). -/
theorem storeReg_crcWidth (r : Reg) (v : Word) (s : State) :
    (storeReg r v s).crcWidth = s.crcWidth ∨ ∃ x, (storeReg r v s).crcWidth = warlWidth x s.crcWidth := by
  cases r with
  | crcCfg => exact .inr ⟨_, rfl⟩
  | _ => exact .inl rfl

/-- Only a write of `STATUS` touches the error record, and it clears it or leaves it (R34). -/
theorem storeReg_error (r : Reg) (v : Word) (s : State) :
    ((storeReg r v s).err = s.err ∧ (storeReg r v s).errCode = s.errCode) ∨
    ((storeReg r v s).err = false ∧ (storeReg r v s).errCode = .none) := by
  cases r with
  | status =>
    simp only [storeReg, writeStatus_err, writeStatus_errCode]
    cases v.getLsbD 2 with
    | false => exact .inl (by simp)
    | true => exact .inr (by simp)
  | _ => exact .inl ⟨rfl, rfl⟩

/-! ### What a step does to one part of the state -/

/-- `PBUF` after a step: as it was, emptied by a reset, or with bytes stored inside its size. -/
theorem step_pbuf {s t : State} (h : step s = .next t) :
    t.pbuf = s.pbuf ∨ t.pbuf = [] ∨ ∃ k bs, k + bs.length ≤ Config.pbufSize ∧ t.pbuf = s.pbuf.store k bs := by
  obtain ⟨rest, he⟩ := step_effect h
  cases he with
  | reset => exact .inr (.inl rfl)
  | storedPbuf k bs _ hk => exact .inr (.inr ⟨k, bs, hk, rfl⟩)
  | storedReg r v => exact .inl (storeReg_pbuf r v _)
  | _ => exact .inl rfl

/-- `FBUF` and `FRAME_LEN` after a step: as they were, emptied by a reset, or those of a packet written. -/
theorem step_fbuf {s t : State} (h : step s = .next t) :
    (t.fbuf = s.fbuf ∧ t.frameLen = s.frameLen) ∨ (t.fbuf = [] ∧ t.frameLen = 0#11) ∨
    ∃ f, IsPacket f ∧ t.fbuf = Memory.listed 0 (f ++ zeros (Config.fbufSize - f.length)) ∧
      t.frameLen = BitVec.ofNat 11 f.length := by
  obtain ⟨rest, he⟩ := step_effect h
  cases he with
  | reset => exact .inr (.inl ⟨rfl, rfl⟩)
  | framed f d _ hf => exact .inr (.inr ⟨f, hf, rfl, rfl⟩)
  | storedReg r v => exact .inl ⟨storeReg_fbuf r v _, storeReg_frameLen r v _⟩
  | _ => exact .inl ⟨rfl, rfl⟩

/-- `WIDTH` after a step: as it was, reset, or written by the WARL rule. -/
theorem step_crcWidth {s t : State} (h : step s = .next t) :
    t.crcWidth = s.crcWidth ∨ t.crcWidth = State.reset.crcWidth ∨ ∃ x, t.crcWidth = warlWidth x s.crcWidth := by
  obtain ⟨rest, he⟩ := step_effect h
  cases he with
  | reset => exact .inr (.inl rfl)
  | storedReg r v => exact (storeReg_crcWidth r v _).imp id .inr
  | _ => exact .inl rfl

/-- The error record after a step: as it was, cleared, or with an error recorded. -/
theorem step_error {s t : State} (h : step s = .next t) :
    (t.err = s.err ∧ t.errCode = s.errCode) ∨ (t.err = false ∧ t.errCode = .none) ∨
    ∃ c, c ≠ ErrCode.none ∧ t.err = true ∧ t.errCode = if s.err then s.errCode else c := by
  obtain ⟨rest, he⟩ := step_effect h
  cases he with
  | reset => exact .inr (.inl ⟨rfl, rfl⟩)
  | storedReg r v => exact (storeReg_error r v _).imp id .inl
  | blocked => exact .inr (.inr ⟨.busyViolation, nofun, rfl, rfl⟩)
  | failed c _ hc => exact .inr (.inr ⟨c, hc, rfl, rfl⟩)
  | _ => exact .inl ⟨rfl, rfl⟩

/-! ### The invariants -/

/-- A packet followed by zeros fills `FBUF` exactly. -/
theorem IsPacket.listed_within {f : List Byte} (hf : IsPacket f) :
    (Memory.listed 0 (f ++ zeros (Config.fbufSize - f.length))).within Config.fbufSize := by
  have := hf.length_le
  refine Memory.listed_within ?_
  rw [List.length_append, zeros_length]
  omega

/-- Settles O9: a step leaves each buffer, empties it, stores inside `PBUF`, or lists a whole `FBUF`. -/
theorem stepKeepsBuffersCanonical : Obligations.StepKeepsBuffersCanonical := by
  rintro s t ⟨hpw, hps, hfw, hfs⟩ h
  have hp : t.pbuf.wf ∧ t.pbuf.within Config.pbufSize := by
    rcases step_pbuf h with hp | hp | ⟨k, bs, hk, hp⟩ <;> rw [hp]
    · exact ⟨hpw, hps⟩
    · exact ⟨.nil, nofun⟩
    · exact ⟨Memory.store_wf hpw k bs, Memory.store_within hps hk⟩
  have hf : t.fbuf.wf ∧ t.fbuf.within Config.fbufSize := by
    rcases step_fbuf h with ⟨hf, _⟩ | ⟨hf, _⟩ | ⟨f, hpk, hf, _⟩ <;> rw [hf]
    · exact ⟨hfw, hfs⟩
    · exact ⟨.nil, nofun⟩
    · exact ⟨Memory.listed_wf 0 _, hpk.listed_within⟩
  exact ⟨hp.1, hp.2, hf⟩

/-- A legal `WIDTH` stays legal in every step (R40). -/
theorem step_width_legal {s t : State} (hs : 1 ≤ s.crcWidth.toNat ∧ s.crcWidth.toNat ≤ 32) (h : step s = .next t) :
    1 ≤ t.crcWidth.toNat ∧ t.crcWidth.toNat ≤ 32 := by
  rcases step_crcWidth h with hw | hw | ⟨x, hw⟩ <;> rw [hw]
  · exact hs
  · decide
  · exact warlWidth_legal hs

/-- Settles O10, from what a step does to `WIDTH` and to the error record. -/
theorem stepKeepsFieldsLegal : Obligations.StepKeepsFieldsLegal := by
  rintro s t ⟨hlo, hhi, herr⟩ h
  obtain ⟨hlo', hhi'⟩ := step_width_legal ⟨hlo, hhi⟩ h
  refine ⟨hlo', hhi', ?_⟩
  rcases step_error h with ⟨he, hc⟩ | ⟨he, hc⟩ | ⟨c, hne, he, hc⟩ <;> rw [he, hc]
  · exact herr
  · simp
  · cases hs : s.err with
    | false => simpa using hne
    | true => simpa [hs] using herr

end Sys2Proof.Machine
end

section
/-! PROOF. The registers as numbers, reserved bits and offsets, the writes of `CRC_CFG` and `STATUS`, and what a reset
leaves (`10_state.md` R30 to R49, R59). -/

namespace Sys2Proof

/-! ### Fields placed in a word -/

theorem placeBit_eq_placeField (b : Bool) (i : Nat) : placeBit b i = placeField (BitVec.ofBool b) i := by
  cases b
  · simp [placeBit, placeField]
  · rfl

/-- A bit placed in a word is its number times a power of two. -/
theorem toNat_placeBit (b : Bool) {i : Nat} (h : i < 32) : (placeBit b i).toNat = b.toNat * 2 ^ i := by
  rw [placeBit_eq_placeField, toNat_placeField _ i (by omega), BitVec.toNat_ofBool]

/-- A low field and a bit above it, as one number. -/
theorem toNat_or_placeBit {x : Word} (b : Bool) {i : Nat} (hx : x.toNat < 2 ^ i) (h : i < 32) :
    (x ||| placeBit b i).toNat = x.toNat + b.toNat * 2 ^ i := by
  rw [placeBit_eq_placeField, toNat_or_placeField x _ i hx (by omega), BitVec.toNat_ofBool]

/-- A field placed where the mask `m` has ones has no bit outside `m`. -/
theorem placeField_and_not {n : Nat} (v : BitVec n) (i : Nat) {m : Word} (h : ∀ j < n, m.getLsbD (i + j) = true) :
    placeField v i &&& ~~~m = 0#32 := by
  apply BitVec.eq_of_getLsbD_eq
  intro k hk
  by_cases hi : i ≤ k ∧ k - i < n
  · have hm := h (k - i) hi.2
    rw [Nat.add_sub_cancel' hi.1] at hm
    rw [BitVec.getLsbD_and, BitVec.getLsbD_not, hm]
    simp
  · have hv : (placeField v i).getLsbD k = false := by
      rw [placeField, BitVec.getLsbD_shiftLeft, BitVec.getLsbD_setWidth]
      by_cases hik : i ≤ k
      · rw [BitVec.getLsbD_of_ge v (k - i) (by omega)]
        simp
      · simp [show k < i by omega]
    rw [BitVec.getLsbD_and, hv]
    simp

theorem placeBit_and_not (b : Bool) (i : Nat) {m : Word} (h : m.getLsbD i = true) : placeBit b i &&& ~~~m = 0#32 := by
  rw [placeBit_eq_placeField]
  refine placeField_and_not _ i fun j hj => ?_
  rwa [Nat.lt_one_iff.1 hj]

theorem or_and_not {x y m : Word} (hx : x &&& ~~~m = 0#32) (hy : y &&& ~~~m = 0#32) : (x ||| y) &&& ~~~m = 0#32 := by
  rw [BitVec.and_or_distrib_right, hx, hy]
  rfl

/-- A bit inside a mask is unchanged by masking. -/
theorem getLsbD_and_of_bit (v : Word) (i : Nat) {m : Word} (h : m.getLsbD i = true) :
    (v &&& m).getLsbD i = v.getLsbD i := by
  rw [BitVec.getLsbD_and, h, Bool.and_true]

/-- A field inside a mask is unchanged by masking. -/
theorem extractLsb'_and_of_bits (v : Word) (i n : Nat) {m : Word} (h : ∀ j < n, m.getLsbD (i + j) = true) :
    (v &&& m).extractLsb' i n = v.extractLsb' i n := by
  apply BitVec.eq_of_getLsbD_eq
  intro j hj
  rw [BitVec.getLsbD_extractLsb', BitVec.getLsbD_extractLsb', getLsbD_and_of_bit v (i + j) (h j hj)]

/-- A bit of a word, from its number. -/
theorem getLsbD_eq_decide (v : Word) (i : Nat) : v.getLsbD i = decide (v.toNat / 2 ^ i % 2 = 1) := by
  rw [← BitVec.testBit_toNat, Nat.testBit_eq_decide_div_mod_eq]

namespace Machine

/-! ### Register values -/

theorem toNat_ctrl (s : State) : (regValue .ctrl s).toNat = s.ieDone.toNat + 2 * s.ieErr.toNat := by
  have h0 := toNat_placeBit s.ieDone (i := 0) (by omega)
  have hd := s.ieDone.toNat_le
  rw [regValue, toNat_or_placeBit _ (by omega) (by omega)]
  omega

theorem toNat_statusWord (s : State) :
    (statusWord s).toNat = s.busy.toNat + 2 * s.done.toNat + 4 * s.err.toNat + 256 * s.errCode.code.toNat := by
  have hb := s.busy.toNat_le
  have hd := s.done.toNat_le
  have he := s.err.toNat_le
  have h0 := toNat_placeBit s.busy (i := 0) (by omega)
  have h1 := toNat_or_placeBit s.done (i := 1) (x := placeBit s.busy 0) (by omega) (by omega)
  have h2 := toNat_or_placeBit s.err (i := 2) (x := placeBit s.busy 0 ||| placeBit s.done 1) (by omega) (by omega)
  rw [statusWord, toNat_or_placeField _ _ 8 (by omega) (by omega)]
  omega

theorem toNat_crcCfg (s : State) :
    (regValue .crcCfg s).toNat = s.crcWidth.toNat + 256 * s.crcRefin.toNat + 512 * s.crcRefout.toNat := by
  have hw := s.crcWidth.isLt
  have hr := s.crcRefin.toNat_le
  have h0 := toNat_placeField s.crcWidth 0 (by omega)
  have h8 := toNat_or_placeBit s.crcRefin (i := 8) (x := placeField s.crcWidth 0) (by omega) (by omega)
  rw [regValue, toNat_or_placeBit _ (by omega) (by omega)]
  omega

theorem toNat_frameCfg (s : State) :
    (regValue .frameCfg s).toNat = s.frameType.bit.toNat + 16 * s.frameScheme.bits.toNat := by
  have ht := s.frameType.bit.toNat_le
  have h0 := toNat_placeBit s.frameType.bit (i := 0) (by omega)
  rw [regValue, toNat_or_placeField _ _ 4 (by omega) (by omega)]
  omega

/-- A register of one field in its low bits reads as the field. -/
theorem toNat_placeField_zero {n : Nat} (v : BitVec n) (h : n ≤ 32) : (placeField v 0).toNat = v.toNat := by
  rw [toNat_placeField v 0 (by omega)]
  simp

/-- Settles O30, register by register; the encodings of `TYPE`, `SCHEME` and `ERRCODE` are tables. -/
theorem registerValuesFollowFields : Obligations.RegisterValuesFollowFields := by
  intro s
  refine ⟨rfl, toNat_ctrl s, ?_, rfl, rfl, rfl, rfl, toNat_crcCfg s, rfl, rfl, toNat_placeField_zero _ (by omega),
    toNat_placeField_zero _ (by omega), toNat_placeField_zero _ (by omega), ?_, toNat_placeField_zero _ (by omega), rfl⟩
  · refine (toNat_statusWord s).trans ?_
    cases s.errCode <;> rfl
  · rw [toNat_frameCfg]
    cases s.frameType <;> cases s.frameScheme <;> rfl

/-! ### `CRC_CFG` and `STATUS` -/

/-- The WARL rule of R40 in numbers, as a write of `CRC_CFG` applies it. -/
theorem warlWidth_extract (v : Word) (old : BitVec 6) :
    warlWidth (v.extractLsb' 0 6) old =
      if 1 ≤ v.toNat % 64 ∧ v.toNat % 64 ≤ 32 then BitVec.ofNat 6 (v.toNat % 64) else old := by
  have hv : v.extractLsb' 0 6 = BitVec.ofNat 6 (v.toNat % 64) := by
    apply BitVec.eq_of_toNat_eq
    simp [BitVec.extractLsb'_toNat]
  have hn : (v.extractLsb' 0 6).toNat = v.toNat % 64 := by simp [BitVec.extractLsb'_toNat]
  rw [warlWidth, hn, hv]
  rfl

/-- A write while no command is pending is stored. -/
theorem writeReg_idle {s : State} (h : s.pending = none) (r : Reg) (v : Word) : writeReg r v s = storeReg r v s := by
  simp [writeReg, State.busy, h]

/-- Settles O32: the write of `CRC_CFG` in numbers, and `WIDTH` legal from reset on. -/
theorem widthIsWarl : Obligations.WidthIsWarl := by
  refine ⟨fun s v hs => ?_, by decide, fun s t => step_width_legal⟩
  refine (hostAccess_writeReg .crcCfg v s).trans ?_
  rw [writeReg_idle hs, storeReg, warlWidth_extract, getLsbD_eq_decide v 8, getLsbD_eq_decide v 9]
  rfl

/-- Settles O40: a write of `STATUS` is never blocked, and clears by ones. -/
theorem statusWriteClearsFlags : Obligations.StatusWriteClearsFlags := by
  intro s v
  have hclear : ∀ b c : Bool, (b && !c) = if c then false else b := by decide
  refine (hostAccess_writeReg .status v s).trans ?_
  simp only [writeReg, Reg.isBlocked, Bool.false_and, storeReg, writeStatus, hclear]
  rfl

/-! ### Reserved offsets and bits -/

/-- An aligned 32-bit access to a reserved offset is in the window and legal (R49). -/
theorem Access.reserved_legal {a : Access} (h : a.off ≤ 0x3FC) (ha : a.off % 4 = 0) (hn : a.size = .b4) :
    a.inWindow = true ∧ a.legal = true ∧ regionOf a.off = .registers := by
  have hr : regionOf a.off = .registers := if_pos (by omega)
  refine ⟨decide_eq_true ?_, ?_, hr⟩
  · rw [hn]
    show a.off + 4 ≤ 4096
    omega
  · simp [Access.legal, hr, hn, ha]

theorem hostAccess_readReserved {off : Nat} (s : State) (h : 0x040 ≤ off) (h' : off ≤ 0x3FC) (ha : off % 4 = 0) :
    hostAccess (.read off .b4) s = .next (answerRead 0#32 s.draws s) := by
  obtain ⟨hw, hl, hr⟩ := Access.reserved_legal (a := .read off .b4) h' ha rfl
  rw [Access.off_read] at hr
  simp [hostAccess, hw, hl, hostRead, hr, regAt_reserved h]

theorem hostAccess_writeReserved {off : Nat} (v : Word) (s : State) (h : 0x040 ≤ off) (h' : off ≤ 0x3FC)
    (ha : off % 4 = 0) : hostAccess (.write off .b4 v) s = .next (acknowledge s) := by
  obtain ⟨hw, hl, hr⟩ := Access.reserved_legal (a := .write off .b4 v) h' ha rfl
  rw [Access.off_write] at hr
  simp [hostAccess, hw, hl, hostWrite, hr, regAt_reserved h]

/-- Every field of a register is placed inside the register's mask, so the reserved bits read as zero (R49). -/
theorem regValue_and_not_fieldMask (r : Reg) (s : State) : regValue r s &&& ~~~r.fieldMask = 0#32 := by
  have whole : ∀ x : Word, x &&& ~~~(0xFFFFFFFF#32) = 0#32 := by simp
  cases r with
  | ctrl => exact or_and_not (placeBit_and_not _ 0 rfl) (placeBit_and_not _ 1 rfl)
  | status =>
    exact or_and_not (or_and_not (or_and_not (placeBit_and_not _ 0 rfl) (placeBit_and_not _ 1 rfl))
      (placeBit_and_not _ 2 rfl)) (placeField_and_not _ 8 (by decide))
  | crcCfg =>
    exact or_and_not (or_and_not (placeField_and_not _ 0 (by decide)) (placeBit_and_not _ 8 rfl))
      (placeBit_and_not _ 9 rfl)
  | frameCfg => exact or_and_not (placeBit_and_not _ 0 rfl) (placeField_and_not _ 4 (by decide))
  | sumAcc | len | seq | frameLen => exact placeField_and_not _ 0 (by decide)
  | id | cmd | crcPoly | crcInit | crcXorout | crcAcc | crcResult | fileSize => exact whole _

/-- A write takes a register's fields from inside the register's mask only (R49). -/
theorem storeReg_and_fieldMask (r : Reg) (v : Word) (s : State) :
    storeReg r v s = storeReg r (v &&& r.fieldMask) s := by
  have bit (i : Nat) (h : r.fieldMask.getLsbD i = true) : (v &&& r.fieldMask).getLsbD i = v.getLsbD i :=
    getLsbD_and_of_bit v i h
  have field (i n : Nat) (h : ∀ j < n, r.fieldMask.getLsbD (i + j) = true) :
      (v &&& r.fieldMask).extractLsb' i n = v.extractLsb' i n := extractLsb'_and_of_bits v i n h
  have whole : v &&& 0xFFFFFFFF#32 = v := BitVec.and_allOnes
  cases r with
  | ctrl => simp only [storeReg, bit 0 rfl, bit 1 rfl]
  | status => simp only [storeReg, writeStatus, bit 1 rfl, bit 2 rfl]
  | crcCfg => simp only [storeReg, field 0 6 (by decide), bit 8 rfl, bit 9 rfl]
  | len => simp only [storeReg, field 0 16 (by decide)]
  | seq => simp only [storeReg, field 0 8 (by decide)]
  | frameCfg => simp only [storeReg, bit 0 rfl, field 4 2 (by decide)]
  | cmd | crcPoly | crcInit | crcXorout | fileSize => simp only [storeReg, Reg.fieldMask, whole]
  | id | crcAcc | crcResult | sumAcc | frameLen => rfl

/-- Settles O34: a reserved offset names no register, and a register's fields lie inside its mask. -/
theorem reservedOffsetsAndBitsAreInert : Obligations.ReservedOffsetsAndBitsAreInert :=
  ⟨fun s v _ h h' ha => ⟨hostAccess_readReserved s h h' ha, hostAccess_writeReserved v s h h' ha⟩,
    fun s v r => ⟨regValue_and_not_fieldMask r s, storeReg_and_fieldMask r v s⟩⟩

/-! ### Reset -/

/-- A register's value does not depend on the fields that a reset leaves. -/
theorem regValue_resetBlock (r : Reg) (s : State) : regValue r (resetBlock s) = regValue r State.reset := by
  cases r <;> rfl

/-- Settles O6: the table of R30, and the rest by what a reset is defined to leave. -/
theorem resetRestoresEveryRegister : Obligations.ResetRestoresEveryRegister := by
  refine fun s => ⟨fun r => ?_, rfl, fun k => ⟨rfl, rfl⟩, rfl, rfl⟩
  rw [regValue_resetBlock]
  cases r <;> decide

/-- Settles O8: empty buffers are canonical, and the reset values of the fields are legal. -/
theorem resetMeetsTheInvariants : Obligations.ResetMeetsTheInvariants :=
  ⟨⟨.nil, nofun, .nil, nofun⟩, ⟨by decide, by decide, by decide⟩, .inl ⟨rfl, rfl⟩⟩

end Machine

end Sys2Proof
end

section
/-! PROOF. The bus: which step is taken, which accesses end in a bus error, the registers read and written, and the
bytes of the two buffer windows read and written (`20_memory.md`, `10_state.md` R56). -/

namespace Sys2Proof.Machine

/-! ### The step that the schedule names -/

theorem step_of_schedule_cons {s : State} {e : Event} {rest : List Event} (h : s.schedule = e :: rest) :
    step s = eventStep e (withSchedule rest s) := by rw [step, nextStep, h]

theorem step_of_schedule_nil {s : State} (h : s.schedule = []) : step s = engineStep s := by rw [step, nextStep, h]

/-- The engine has no step of its own while nothing is pending (R142). -/
theorem engineStep_idle {s : State} (h : s.pending = none) : engineStep s = .next s := by rw [engineStep, h]

/-- Settles O5, by the head of the schedule. -/
theorem stepTakesTheScheduledAgent : Obligations.StepTakesTheScheduledAgent := fun _ rest =>
  ⟨fun _ h => step_of_schedule_cons h, fun h => step_of_schedule_cons h,
    fun h hp => (step_of_schedule_cons h).trans (engineStep_idle (s := withSchedule rest _) hp),
    fun h hp => (step_of_schedule_nil h).trans (engineStep_idle hp)⟩

/-! ### Accesses in and out of the window -/

theorem Access.inWindow_iff (a : Access) : a.inWindow = true ↔ a.off + a.size.bytes ≤ 0x1000 := decide_eq_true_iff

/-- Settles O57: such an access does not reach the block (R80). -/
theorem accessOutsideWindowChangesNothing : Obligations.AccessOutsideWindowChangesNothing := by
  intro a s h
  have hw : a.inWindow = false := by
    rw [← Bool.not_eq_true, Access.inWindow_iff]
    omega
  simp [hostAccess, hw]

/-- The widths and alignments that R83 and R84 allow, by region. -/
theorem Access.legal_iff (a : Access) :
    a.legal = true ↔ if a.off < 0x400 then a.size = .b4 ∧ a.off % 4 = 0 else a.off % a.size.bytes = 0 := by
  unfold Access.legal
  by_cases hr : a.off < 0x400
  · simp [regionOf, hr]
  · by_cases hp : a.off < 0x800 <;> simp [regionOf, hr, hp]

/-- A read that its region serves faults on an unwritten byte only, never with a bus error. -/
theorem hostRead_ne_busError (off off' : Nat) (n n' : AccessSize) (d : Dir) (s : State) :
    hostRead off n s ≠ .fault (.busError off' n' d) := by
  unfold hostRead readBytes
  repeat' split
  all_goals exact nofun

/-- Inside the window, the bus error is the answer to exactly the accesses that are not legal (R86). -/
theorem hostAccess_busError_iff {a : Access} (s : State) (hw : a.inWindow = true) :
    hostAccess a s = .fault (.busError a.off a.size a.dir) ↔ ¬ a.legal = true := by
  cases hl : a.legal with
  | false => simp [hostAccess, hw, hl]
  | true =>
    cases a with
    | read off n => simpa [hostAccess, hw, hl] using hostRead_ne_busError off off n n .read s
    | write off n v => simp [hostAccess, hw, hl]

/-- Settles O36: the bus error of R86 against the widths and alignments of R83 and R84. -/
theorem busErrorExactlyWhenIllegal : Obligations.BusErrorExactlyWhenIllegal := by
  intro a s h
  rw [hostAccess_busError_iff s (a.inWindow_iff.2 h), Access.legal_iff]
  split <;> rfl

/-! ### What an access leaves unchanged -/

/-- Settles O28: a read that goes on makes an answer of the state, or does not reach the block. -/
theorem readsChangeNoState : Obligations.ReadsChangeNoState := by
  intro off n s t h
  rcases hostAccess_next h with ⟨_, rfl⟩ | ⟨_, _, ⟨_, _, v, d, _, rfl⟩ | ⟨_, _, _, hw, _⟩⟩
  · rfl
  · rfl
  · cases hw

/-- A write of a register that is not blocked while `BUSY` = 1 reaches `CTRL` and `STATUS` at most (R146). -/
theorem storeReg_notBlocked {r : Reg} (h : r.isBlocked = false) (v : Word) (s : State) :
    storeReg r v s = { s with
      ieDone := (storeReg r v s).ieDone, ieErr := (storeReg r v s).ieErr, done := (storeReg r v s).done
      err := (storeReg r v s).err, errCode := (storeReg r v s).errCode } := by
  cases r with
  | cmd | crcPoly | crcInit | crcXorout | crcCfg | len | seq | frameCfg | fileSize => cases h
  | id | ctrl | status | crcAcc | crcResult | sumAcc | frameLen => rfl

/-- Settles O27, by what a host access can do; on a busy block a write stores
only in a register that is not blocked. -/
theorem hostAccessKeepsOperandsWhileBusy : Obligations.HostAccessKeepsOperandsWhileBusy := by
  intro a s t hb h
  have hbusy : s.busy = true := hb
  rcases hostAccess_next h with ⟨_, rfl⟩ | ⟨_, _, ⟨_, _, v, d, _, rfl⟩ | ⟨off, n, v, _, rfl⟩⟩
  · rfl
  · rfl
  · rcases hostWrite_cases off n v s with hw | ⟨_, hw⟩ | ⟨r, _, hr, hw⟩ | ⟨hidle, _, _⟩
    · rw [hw]
      rfl
    · rw [hw]
      rfl
    · rw [hw, storeReg_notBlocked (by simpa [hbusy] using hr) v s]
      rfl
    · simp [hbusy] at hidle

/-! ### Reading and writing registers -/

theorem Reg.isResult_iff (r : Reg) : r.isResult = true ↔ r ∈ [Reg.crcAcc, .crcResult, .sumAcc, .seq, .frameLen] := by
  cases r <;> decide

/-- Settles O29: the two answers of R56 and R87. -/
theorem registerReadsAnswer : Obligations.RegisterReadsAnswer := by
  intro s r
  simp only [hostAccess_readReg, readReg, State.busy, Bool.and_eq_true, Reg.isResult_iff]
  split <;> rfl

/-- A write of a register while no command is pending stores its fields and is acknowledged. -/
theorem hostAccess_writeReg_idle {s : State} (h : s.pending = none) (r : Reg) (v : Word) :
    hostAccess (.write r.offset .b4 v) s = .next (acknowledge (storeReg r v s)) := by
  rw [hostAccess_writeReg, writeReg_idle h]

/-- A low field of a word, from its number. -/
theorem extractLsb'_zero_eq_ofNat (v : Word) (n : Nat) : v.extractLsb' 0 n = BitVec.ofNat n (v.toNat % 2 ^ n) := by
  apply BitVec.eq_of_toNat_eq
  simp [BitVec.extractLsb'_toNat]

/-- The `TYPE` a word of `FRAME_CFG` selects, from its number (R46). -/
theorem PacketType.ofBit_getLsbD (v : Word) :
    PacketType.ofBit (v.getLsbD 0) = if v.toNat % 2 = 0 then .soh else .stx := by
  rw [getLsbD_eq_decide, PacketType.ofBit, pow_zero, Nat.div_one]
  rcases Nat.mod_two_eq_zero_or_one v.toNat with h | h <;> simp [h]

theorem Scheme.ofBits_toNat (b : BitVec 2) :
    Scheme.ofBits b =
      if b.toNat = 0 then .none else if b.toNat = 1 then .additive else if b.toNat = 2 then .crc16 else .reserved := by
  revert b
  decide

/-- The `SCHEME` a word of `FRAME_CFG` selects, from its number (R46). -/
theorem Scheme.ofBits_extract (v : Word) :
    Scheme.ofBits (v.extractLsb' 4 2) =
      if v.toNat / 16 % 4 = 0 then .none
      else if v.toNat / 16 % 4 = 1 then .additive
      else if v.toNat / 16 % 4 = 2 then .crc16
      else .reserved := by
  have hn : (v.extractLsb' 4 2).toNat = v.toNat / 16 % 4 := by
    rw [BitVec.extractLsb'_toNat, Nat.shiftRight_eq_div_pow]
  rw [Scheme.ofBits_toNat, hn]

/-- Settles O31, register by register; the fields of a word are its digits. -/
theorem registerWritesStoreFields : Obligations.RegisterWritesStoreFields := by
  intro s v hs wr
  have hwr (r : Reg) : wr r = .next (acknowledge (storeReg r v s)) := hostAccess_writeReg_idle hs r v
  have hro (r : Reg) (hr : storeReg r v s = s) : wr r = .next { s with lastResponse := some .ack } := by
    rw [hwr, hr]
    rfl
  refine ⟨?_, hwr .crcPoly, hwr .crcInit, hwr .crcXorout, ?_, ?_, ?_, hwr .fileSize, ?_⟩
  · rw [hwr, storeReg, getLsbD_eq_decide, getLsbD_eq_decide, pow_zero, Nat.div_one]
    rfl
  · rw [hwr, storeReg, extractLsb'_zero_eq_ofNat]
    rfl
  · rw [hwr, storeReg, extractLsb'_zero_eq_ofNat]
    rfl
  · rw [hwr, storeReg, PacketType.ofBit_getLsbD, Scheme.ofBits_extract]
    rfl
  · intro r hr
    simp only [List.mem_cons, List.not_mem_nil, or_false] at hr
    rcases hr with rfl | rfl | rfl | rfl | rfl <;> exact hro _ rfl

/-! ### Reading buffer bytes -/

/-- A read whose bytes resolve answers them as one bus value. -/
theorem readBytes_of_resolve {n d : Nat} {srcs : List ByteSource} {f : Nat → Byte} {s : State}
    (h : resolve 0 srcs s.draws = .ok ((List.range n).map f, d)) (off : Nat) :
    readBytes off srcs s = .next (answerRead (busValue n f) d s) := by
  rw [readBytes, h, ← assemble_map_range]

/-- A read of known bytes answers them. -/
theorem readBytes_known (off n : Nat) (f : Nat → Byte) (s : State) :
    readBytes off ((List.range n).map (fun j => .known (f j))) s = .next (answerRead (busValue n f) s.draws s) := by
  have hm : (List.range n).map (fun j => ByteSource.known (f j)) = ((List.range n).map f).map .known := by
    rw [List.map_map, Function.comp_def]
  exact readBytes_of_resolve (hm ▸ resolve_known 0 _ _) off

/-- A read of bytes that have all been written answers them, and draws nothing (R89, R91). -/
theorem readBytes_written {n : Nat} {byte : Nat → Option Byte} (h : ∀ j < n, (byte j).isSome = true) (off : Nat)
    (s : State) :
    readBytes off ((List.range n).map (fun j => storedSource (byte j))) s =
      .next (answerRead (busValue n (fun j => (byte j).getD 0#8)) s.draws s) := by
  rw [← readBytes_known]
  congr 1
  refine List.map_congr_left fun j hj => ?_
  obtain ⟨b, hb⟩ := Option.isSome_iff_exists.1 (h j (List.mem_range.1 hj))
  rw [hb]
  rfl

/-- With `UNINIT_READ` = `fault`, a read of which one byte has not been written stops (R89, R91). -/
theorem readBytes_fault (hu : Config.uninitRead = .fault) {n : Nat} {byte : Nat → Option Byte}
    (h : ∃ j < n, byte j = none) (off : Nat) (s : State) :
    readBytes off ((List.range n).map (fun j => storedSource (byte j))) s = .fault (.uninitRead off) := by
  obtain ⟨hk, hnone⟩ := Nat.find_spec h
  have hbelow : ∀ j < Nat.find h, (byte j).isSome = true := fun j hj =>
    Option.isSome_iff_ne_none.2 fun hj' => Nat.find_min h hj ⟨hj.trans hk, hj'⟩
  rw [readBytes, resolve_stored_fault hu byte hk hnone hbelow]

/-- With `UNINIT_READ` = `draw`, a read answers the written bytes, and a free value for each other one (R89, R91). -/
theorem readBytes_draw (hu : Config.uninitRead = .draw) (byte : Nat → Option Byte) (n off : Nat) (s : State) :
    readBytes off ((List.range n).map (fun j => storedSource (byte j))) s =
      .next (answerRead
        (busValue n (fun j =>
          match byte j with
          | some b => b
          | none => Config.drawByte (s.draws + unwrittenBelow byte j)))
        (s.draws + unwrittenBelow byte n) s) :=
  readBytes_of_resolve (resolve_stored_draw hu byte n 0 s.draws) off

/-- Free bytes and then zeros: one free value each for the free ones, in order. -/
theorem resolve_free_then_zeros (m n i d : Nat) :
    resolve i ((List.range n).map (fun j => if j < m then ByteSource.free else .known 0#8)) d =
      .ok ((List.range n).map (fun j => if j < m then Config.drawByte (d + j) else 0#8), d + min n m) := by
  induction n generalizing m i d with
  | zero => simp [resolve]
  | succ n ih =>
    simp only [List.range_succ_eq_map, List.map_cons, List.map_map, Function.comp_def]
    cases m with
    | zero =>
      have hr := ih 0 (i + 1) d
      simp only [Nat.not_lt_zero, if_false] at hr ⊢
      rw [resolve, hr]
      simp [prependByte, Except.map]
    | succ m =>
      simp only [Nat.zero_lt_succ, if_true, Nat.succ_lt_succ_iff, Nat.succ_eq_add_one]
      rw [resolve, ih]
      simp [prependByte, Except.map, Nat.add_assoc, Nat.add_comm 1]

/-- Settles O56: written bytes of `PBUF` are stored bytes of the read, whether or not a command is pending. -/
theorem pbufReadsAnswerWrittenBytes : Obligations.PbufReadsAnswerWrittenBytes := by
  intro s off n h h' ha hw
  exact (hostAccess_readPbuf s h h' ha).trans (readBytes_written hw off s)

/-! ### The `FBUF` window -/

/-- Settles O37: the `FBUF` window takes no write (R92). -/
theorem fbufWindowIgnoresWrites : Obligations.FbufWindowIgnoresWrites := by
  intro s off n v h h' ha
  obtain ⟨hw, hl⟩ := Access.buffer_legal (a := .write off n v) (by rw [Access.off_write]; omega) h' ha
  simp [hostAccess, hw, hl, hostWrite, regionOf_fbuf h, acknowledge]

/-- Above index 1028 a byte of the window is zero (R91). -/
theorem fbufSource_above {k : Nat} (h : 1028 < k) (s : State) : fbufSource s k = .known 0#8 := if_pos h

/-- While no command is pending, a byte of the window is the stored one, or zero above index 1028 (R91). -/
theorem fbufSource_idle {s : State} (h : s.pending = none) (k : Nat) :
    fbufSource s k = storedSource (if k ≤ 1028 then s.fbuf.read k else some 0#8) := by
  by_cases hk : k ≤ 1028
  · have hin : ¬ Config.fbufSize ≤ k := not_le.2 (Nat.lt_succ_of_le hk)
    rw [fbufSource, if_neg hin, State.busy, h, if_pos hk]
    rfl
  · rw [fbufSource_above (not_le.1 hk), if_neg hk]
    rfl

/-- While a command is pending, a byte of the window up to index 1028 is free (R91). -/
theorem fbufSource_busy {s : State} (h : s.pending.isSome = true) (k : Nat) :
    fbufSource s k = if k < 1029 then .free else .known 0#8 := by
  by_cases hk : k < 1029
  · have hin : ¬ Config.fbufSize ≤ k := not_le.2 hk
    rw [fbufSource, if_neg hin, State.busy, h, if_pos hk]
    rfl
  · rw [fbufSource_above (by omega), if_neg hk]

/-- A read above index 1028 answers 0. -/
theorem hostAccess_readFbuf_above {off : Nat} {n : AccessSize} (s : State) (h : 0x800 + 1029 ≤ off)
    (h' : off + n.bytes ≤ 0x1000) (ha : off % n.bytes = 0) :
    hostAccess (.read off n) s = .next (answerRead 0#32 s.draws s) := by
  have hz : busValue n.bytes (fun _ => 0#8) = 0#32 := by cases n <;> rfl
  rw [hostAccess_readFbuf s (by omega) h' ha, ← hz, ← readBytes_known]
  congr 1
  exact List.map_congr_left fun j _ => fbufSource_above (by omega) s

/-- A read while no command is pending is one of stored bytes, with zeros above index 1028. -/
theorem hostAccess_readFbuf_idle {off : Nat} {n : AccessSize} {s : State} (hs : s.pending = none) (h : 0x800 ≤ off)
    (h' : off + n.bytes ≤ 0x1000) (ha : off % n.bytes = 0) :
    hostAccess (.read off n) s =
      readBytes off ((List.range n.bytes).map (fun j =>
        storedSource (if off - 0x800 + j ≤ 1028 then s.fbuf.read (off - 0x800 + j) else some 0#8))) s := by
  rw [hostAccess_readFbuf s h h' ha]
  congr 1
  exact List.map_congr_left fun j _ => fbufSource_idle hs _

/-- A read while a command is pending answers a free value for each byte up to index 1028, and zeros above. -/
theorem hostAccess_readFbuf_busy {off : Nat} {n : AccessSize} {s : State} (hs : s.pending.isSome = true)
    (h : 0x800 ≤ off) (h' : off + n.bytes ≤ 0x1000) (ha : off % n.bytes = 0) :
    hostAccess (.read off n) s =
      .next (answerRead
        (busValue n.bytes (fun j => if j < 0x800 + 1029 - off then Config.drawByte (s.draws + j) else 0#8))
        (s.draws + min n.bytes (0x800 + 1029 - off)) s) := by
  have hm : (List.range n.bytes).map (fun j => fbufSource s (off - 0x800 + j)) =
      (List.range n.bytes).map (fun j => if j < 0x800 + 1029 - off then .free else .known 0#8) :=
    List.map_congr_left fun j _ => by
      rw [fbufSource_busy hs]
      congr 1
      exact propext (by omega)
  rw [hostAccess_readFbuf s h h' ha, hm, readBytes_of_resolve (resolve_free_then_zeros _ _ 0 _)]

/-- Settles O38: the three kinds of byte of the window, above index 1028, stored, and free. -/
theorem fbufWindowReads : Obligations.FbufWindowReads := by
  intro s off n h h' ha
  refine ⟨fun habove => hostAccess_readFbuf_above s habove h' ha, fun hs hw => ?_, fun hs _ => ?_⟩
  · rw [hostAccess_readFbuf_idle hs h h' ha, readBytes_written]
    · simp only [apply_ite (fun o : Option Byte => o.getD 0#8), Option.getD_some]
      rfl
    · intro j hj
      split
      · next hk => exact hw j hj hk
      · rfl
  · have hcond (j : Nat) : j < 0x800 + 1029 - off ↔ off - 0x800 + j ≤ 1028 := by omega
    rw [hostAccess_readFbuf_busy hs h h' ha]
    simp only [hcond]
    rfl

/-- Settles O39: both windows give stored bytes of the read, of which one is not written. -/
theorem unwrittenByteReads : Obligations.UnwrittenByteReads := by
  intro s off n byte ha hwin hnone
  have hread : hostAccess (.read off n) s =
      readBytes off ((List.range n.bytes).map (fun j => storedSource (byte j))) s := by
    rcases hwin with ⟨h, h', rfl⟩ | ⟨h, h', hs, rfl⟩
    · exact hostAccess_readPbuf s h h' ha
    · exact hostAccess_readFbuf_idle hs h h' ha
  rw [hread]
  cases hu : Config.uninitRead with
  | fault => exact readBytes_fault hu hnone off s
  | draw => exact readBytes_draw hu byte n.bytes off s

/-! ### Writing `PBUF` -/

theorem busValue_congr {n : Nat} {f g : Nat → Byte} (h : ∀ j < n, f j = g j) : busValue n f = busValue n g := by
  rw [← assemble_map_range, ← assemble_map_range, List.map_congr_left fun j hj => h j (List.mem_range.1 hj)]

/-- The lanes of a bus word put together again are its low bytes. -/
theorem busValue_laneByte (v : Word) (n : Nat) : busValue n (laneByte v) = BitVec.ofNat 32 (v.toNat % 2 ^ (8 * n)) := by
  have hpow (j : Nat) : 2 ^ (8 * j) = 256 ^ j := pow_mul 2 8 j
  have hsum : ((List.range n).map (fun j => (laneByte v j).toNat * 256 ^ j)).sum = v.toNat % 256 ^ n := by
    induction n with
    | zero => simp [Nat.mod_one]
    | succ n ih =>
      have hlane : (laneByte v n).toNat = v.toNat / 256 ^ n % 256 := by
        rw [laneByte, BitVec.extractLsb'_toNat, Nat.shiftRight_eq_div_pow, hpow]
      rw [List.range_succ, List.map_append, List.sum_append, ih, List.map_singleton, List.sum_singleton, hlane,
        Nat.mod_pow_succ, Nat.mul_comm (256 ^ n)]
  rw [busValue, hsum, hpow]

theorem laneBytes_getElem? (v : Word) (n : AccessSize) {j : Nat} (h : j < n.bytes) :
    (laneBytes v n)[j]? = some (laneByte v j) := by simp [laneBytes, h]

/-- The buffer after a write of the lanes of `v` at index `k` (R85, R90). -/
theorem Memory.read_store_laneBytes {m : Memory} (h : m.wf) (k i : Nat) (v : Word) (n : AccessSize) :
    (m.store k (laneBytes v n)).read i = if k ≤ i ∧ i < k + n.bytes then some (laneByte v (i - k)) else m.read i := by
  rw [Memory.read_store h, laneBytes_length]
  split
  · exact laneBytes_getElem? v n (by omega)
  · rfl

/-- A legal write of `PBUF` while no command is pending stores its lanes (R90). -/
theorem hostAccess_writePbuf_idle {off : Nat} {n : AccessSize} {s : State} (hs : s.pending = none) (v : Word)
    (h : 0x400 ≤ off) (h' : off + n.bytes ≤ 0x800) (ha : off % n.bytes = 0) :
    hostAccess (.write off n v) s =
      .next (acknowledge { s with pbuf := s.pbuf.store (off - 0x400) (laneBytes v n) }) := by
  rw [hostAccess_writePbuf v s h h' ha, writePbuf, State.busy, hs]
  rfl

/-- Settles O35: the lanes stored, and then the same bytes read as written ones. -/
theorem pbufWriteThenRead : Obligations.PbufWriteThenRead := by
  intro s off n v hs hwf h h' ha
  have hread := fun i => Memory.read_store_laneBytes hwf (off - 0x400) i v n
  have hlane : ∀ j < n.bytes,
      (s.pbuf.store (off - 0x400) (laneBytes v n)).read (off - 0x400 + j) = some (laneByte v j) := fun j hj => by
    rw [hread, if_pos (by omega), Nat.add_sub_cancel_left]
  refine ⟨_, hostAccess_writePbuf_idle hs v h h' ha, rfl, hread, ?_⟩
  refine (pbufReadsAnswerWrittenBytes _ off n h h' ha fun j hj => ?_).trans ?_
  · exact Option.isSome_iff_exists.2 ⟨_, hlane j hj⟩
  · rw [← busValue_laneByte, busValue_congr (g := laneByte v) fun j hj => ?_]
    exact congrArg (fun o : Option Byte => o.getD 0#8) (hlane j hj)

end Sys2Proof.Machine
end

section
/-! PROOF. The encoding: the decoder and the encoder as inverses of each other, the illegal words, what a command may
change, and the run of an issued command (`30_encoding.md`, `40_command_control.md` R142, R145). -/

namespace Sys2Proof

/-! ### The fields of a command's word -/

@[simp] theorem opcodeOf_encode (i : Instr) : opcodeOf (encode i) = i.opcode := by
  have := i.opcode.isLt
  apply BitVec.eq_of_toNat_eq
  rw [toNat_opcodeOf, toNat_encode]
  omega

@[simp] theorem imm8Of_encode (i : Instr) : imm8Of (encode i) = i.imm8 := by
  have := i.opcode.isLt
  have := i.imm8.isLt
  apply BitVec.eq_of_toNat_eq
  rw [toNat_imm8Of, toNat_encode]
  omega

@[simp] theorem rsvdOf_encode (i : Instr) : rsvdOf (encode i) = 0#16 := by
  have := i.opcode.isLt
  have := i.imm8.isLt
  apply BitVec.eq_of_toNat_eq
  rw [toNat_rsvdOf, toNat_encode, BitVec.toNat_ofNat]
  omega

/-- The three fields of R110 cover a word: two words with the same fields are the same. -/
theorem word_ext_fields {v w : Word} (hr : rsvdOf v = rsvdOf w) (hi : imm8Of v = imm8Of w)
    (ho : opcodeOf v = opcodeOf w) : v = w := by
  have hr := congrArg BitVec.toNat hr
  have hi := congrArg BitVec.toNat hi
  have ho := congrArg BitVec.toNat ho
  rw [toNat_rsvdOf, toNat_rsvdOf] at hr
  rw [toNat_imm8Of, toNat_imm8Of] at hi
  rw [toNat_opcodeOf, toNat_opcodeOf] at ho
  apply BitVec.eq_of_toNat_eq
  omega

theorem encode_eq_iff (w : Word) (i : Instr) :
    encode i = w ↔ rsvdOf w = 0#16 ∧ opcodeOf w = i.opcode ∧ imm8Of w = i.imm8 := by
  constructor
  · rintro rfl
    exact ⟨rsvdOf_encode i, opcodeOf_encode i, imm8Of_encode i⟩
  · rintro ⟨hr, ho, hi⟩
    exact word_ext_fields (by rw [hr, rsvdOf_encode]) (by rw [hi, imm8Of_encode]) (by rw [ho, opcodeOf_encode])

/-! ### The decoder -/

/-- Away from 0x02, the opcode alone decides, and no two commands share one (R114). -/
theorem decodeOpcode_eq_some_iff (op : BitVec 8) (i : Instr) :
    decodeOpcode op = some i ↔ op = i.opcode ∧ op ≠ 0x02#8 := by
  constructor
  · intro h
    unfold decodeOpcode at h
    split_ifs at h with h0 h1 h3 h4 h5 h6 <;> cases h <;> subst op <;> exact ⟨rfl, by decide⟩
  · rintro ⟨rfl, h⟩
    cases i with
    | calcByte imm => exact absurd rfl h
    | _ => rfl

/-- The opcodes without a command of their own: 0x02, which needs its immediate, and the reserved ones (R114). -/
theorem decodeOpcode_eq_none_iff (op : BitVec 8) : decodeOpcode op = none ↔ op = 0x02#8 ∨ 7 ≤ op.toNat := by
  revert op
  decide

/-- An immediate in range is the number of its byte, and no other immediate is (R112, R117). -/
theorem toNat_eq_iff_ofNat (b : BitVec 8) (imm : Nat) : b.toNat = imm ↔ imm ≤ 255 ∧ b = BitVec.ofNat 8 imm := by
  have := b.isLt
  rw [← BitVec.toNat_inj, BitVec.toNat_ofNat]
  omega

/-- What decoding to a command asks of each field, and of the command. -/
theorem decode_eq_some_iff (w : Word) (i : Instr) :
    decode w = some i ↔ i.WellFormed ∧ rsvdOf w = 0#16 ∧ opcodeOf w = i.opcode ∧ imm8Of w = i.imm8 := by
  unfold decode
  by_cases hr : rsvdOf w = 0#16
  · by_cases ho : opcodeOf w = 0x02#8
    · cases i with
      | calcByte imm =>
        simp [hr, ho, Instr.WellFormed, Instr.wellFormed, Instr.opcode, Instr.imm8, toNat_eq_iff_ofNat]
      | _ => simp [hr, ho, Instr.opcode]
    · cases i with
      | calcByte imm => simp [hr, ho, Instr.opcode, decodeOpcode_eq_some_iff]
      | _ =>
        by_cases hi : imm8Of w = 0#8 <;>
          simp [hr, ho, hi, decodeOpcode_eq_some_iff, Instr.WellFormed, Instr.wellFormed, Instr.opcode, Instr.imm8]
  · simp [hr]

/-- The illegal words of R116, by their fields. -/
theorem decode_eq_none_iff (w : Word) :
    decode w = none ↔
      rsvdOf w ≠ 0#16 ∨ 7 ≤ (opcodeOf w).toNat ∨ (opcodeOf w ≠ 0x02#8 ∧ imm8Of w ≠ 0#8) := by
  unfold decode
  by_cases hr : rsvdOf w = 0#16
  · by_cases ho : opcodeOf w = 0x02#8
    · simp [hr, ho]
    · by_cases hi : imm8Of w = 0#8 <;> simp [hr, ho, hi, decodeOpcode_eq_none_iff]
  · simp [hr]

/-- Settles O2: the fields that `decode` asks for are those of the word that `encode` makes. -/
theorem decodeInvertsEncode : Obligations.DecodeInvertsEncode := fun w i => by
  rw [decode_eq_some_iff, encode_eq_iff]

theorem decode_encode {i : Instr} (h : i.WellFormed) : decode (encode i) = some i :=
  (decodeInvertsEncode _ i).2 ⟨h, rfl⟩

namespace Machine

/-! ### Illegal words -/

/-- The performance of an illegal word is an error completion (R145). -/
theorem performWord_illegal {w : Word} (h : decode w = none) (s : State) :
    performWord w s = .next (errorComplete .illegalCmd s) := by
  rw [performWord, h]
  rfl

/-- Settles O3: the fields of R116 as numbers, an issue on an idle block, and R145. -/
theorem illegalWordsCompleteWithIllegalCmd : Obligations.IllegalWordsCompleteWithIllegalCmd := by
  intro w
  refine ⟨?_, fun h s => ⟨fun hs => hostAccess_writeReg_idle hs .cmd w, performWord_illegal h s⟩⟩
  simp [decode_eq_none_iff, ← BitVec.toNat_inj, toNat_rsvdOf, toNat_opcodeOf, toNat_imm8Of]

/-! ### What a command may change -/

/-- Settles O26, by the kinds of effect a command that goes on can have. -/
theorem commandsWriteOnlyTheirResults : Obligations.CommandsWriteOnlyTheirResults := by
  intro i s t h
  rcases exec_next h with ⟨c, _, rfl⟩ | ⟨_, rfl⟩ | ⟨hi, acc, sum, d, rfl⟩ | ⟨hi, ty, seq, data, tr, d, _, rfl⟩ | ⟨rfl, rfl⟩
  · exact ⟨rfl, fun _ => ⟨rfl, rfl⟩, fun _ _ => ⟨rfl, rfl⟩, fun _ => rfl, fun he => ⟨rfl, if_pos he⟩⟩
  · exact ⟨rfl, fun _ => ⟨rfl, rfl⟩, fun _ _ => ⟨rfl, rfl⟩, fun _ => rfl, fun he => ⟨he, rfl⟩⟩
  · refine ⟨rfl, fun hn => ?_, fun _ _ => ⟨rfl, rfl⟩, fun _ => rfl, fun he => ⟨he, rfl⟩⟩
    rcases hi with rfl | ⟨imm, rfl⟩ | rfl <;> simp at hn
  · refine ⟨rfl, fun _ => ⟨rfl, rfl⟩, fun h1 h2 => ?_, fun _ => rfl, fun he => ⟨he, rfl⟩⟩
    exact (hi.elim h1 h2).elim
  · exact ⟨rfl, fun _ => ⟨rfl, rfl⟩, fun _ _ => ⟨rfl, rfl⟩, fun hn => absurd rfl hn, fun he => ⟨he, rfl⟩⟩

/-! ### The run of an issued command -/

theorem reaches_one {s t : State} (h : step s = .next t) : Reaches 1 s t :=
  (reaches_succ 0 s t).2 ⟨t, h, (reaches_zero t t).2 rfl⟩

/-- `STATUS[0]` is `BUSY` (R33). -/
theorem getLsbD_statusWord_zero (s : State) : (statusWord s).getLsbD 0 = s.busy := by
  simp only [statusWord, placeField, BitVec.getLsbD_or, BitVec.getLsbD_shiftLeft, getLsbD_placeBit]
  simp

/-- `ISSUE` on an idle block puts the command's word in the latch (R141). -/
theorem step_issue {s : State} {i : Instr} {rest : List Event} (hp : s.pending = none)
    (hs : s.schedule = issue i ++ rest) :
    step s = .next { s with pending := some (encode i), schedule := rest, lastResponse := some .ack } :=
  (step_of_schedule_cons hs).trans (hostAccess_writeReg_idle (s := withSchedule rest s) hp .cmd (encode i))

/-- A read of `STATUS` answers its value, busy or idle, and draws nothing. -/
theorem step_readStatus {s : State} {rest : List Event} (hs : s.schedule = r32 Reg.status.offset :: rest) :
    step s = .next { s with schedule := rest, lastResponse := some (.data (regValue .status s)) } :=
  (step_of_schedule_cons hs).trans (hostAccess_readReg .status (withSchedule rest s))

/-- Any number of reads of `STATUS` changes nothing but the last answer. -/
theorem reaches_readStatus (n : Nat) {s : State} {rest : List Event}
    (hs : s.schedule = List.replicate n (r32 Reg.status.offset) ++ rest) :
    ∃ answer, Reaches n s { s with schedule := rest, lastResponse := answer } := by
  induction n generalizing s with
  | zero =>
    obtain rfl : s.schedule = rest := hs
    exact ⟨s.lastResponse, (reaches_zero _ _).2 rfl⟩
  | succ n ih =>
    obtain ⟨answer, hr⟩ := ih (s := { s with
      schedule := List.replicate n (r32 Reg.status.offset) ++ rest
      lastResponse := some (.data (regValue .status s)) }) rfl
    exact ⟨answer, (reaches_succ _ _ _).2 ⟨_, step_readStatus hs, hr⟩⟩

theorem engineStep_pending {s : State} {w : Word} (h : s.pending = some w) : engineStep s = performWord w s := by
  rw [engineStep, h]

theorem performWord_of_decode {w : Word} {i : Instr} (h : decode w = some i) (s : State) :
    performWord w s = exec i s := by rw [performWord, h]

/-- The engine's step performs the command whose word the latch holds (R142). -/
theorem step_perform {s : State} {i : Instr} {rest : List Event} (hi : i.WellFormed)
    (hp : s.pending = some (encode i)) (hs : s.schedule = .perform :: rest) :
    step s = exec i { s with schedule := rest } :=
  calc step s = engineStep (withSchedule rest s) := step_of_schedule_cons hs
    _ = performWord (encode i) (withSchedule rest s) := engineStep_pending hp
    _ = exec i (withSchedule rest s) := performWord_of_decode (decode_encode hi) _

/-- Settles O54: the steps of `ISSUE`, of the early reads, of the performance and of the last read, one after the other. -/
theorem runCommandPerformsIt : Obligations.RunCommandPerformsIt := by
  intro s i before rest hi hp hs
  have hissue := reaches_one (step_issue (rest := waitLoop before ++ rest) hp (by rw [hs, runCommand, List.append_assoc]))
  obtain ⟨answer, hreads⟩ := reaches_readStatus before (rest := .perform :: r32 Reg.status.offset :: rest)
    (s := { s with
      pending := some (encode i), schedule := waitLoop before ++ rest, lastResponse := some .ack })
    (by simp [waitLoop])
  refine ⟨answer, fun t ht => ?_⟩
  obtain ⟨hpend, _, hsched⟩ := exec_completes ht
  have hlast := reaches_one (step_readStatus hsched)
  constructor
  · rw [show before + 3 = 1 + before + 1 + 1 by omega]
    refine reaches_trans (reaches_trans (reaches_trans hissue hreads) (reaches_one ?_)) hlast
    exact (step_perform hi rfl rfl).trans ht
  · rw [regValue, getLsbD_statusWord_zero, State.busy, hpend]
    rfl

/-! ### The opcode map -/

/-- Settles O1, by the inverse of the encoder and the illegal words. -/
theorem opcodeMapDecodes : Obligations.OpcodeMapDecodes := by
  refine ⟨rfl, rfl, fun b => ?_, rfl, rfl, rfl, rfl, fun w h => ?_⟩
  · have hb := b.isLt
    refine (decodeInvertsEncode _ _).2 ⟨decide_eq_true (by omega), BitVec.eq_of_toNat_eq ?_⟩
    rw [toNat_encode, Instr.opcode, Instr.imm8, BitVec.ofNat_toNat, BitVec.setWidth_eq, BitVec.toNat_ofNat,
      BitVec.toNat_ofNat]
    omega
  · rw [decode_eq_none_iff, toNat_opcodeOf]
    exact .inr (.inl h)

end Machine

end Sys2Proof
end

section
/-! PROOF. Command control: which step performs the pending word, how a pending command ends, what a busy block makes of
a write, and the commands that meet a `PBUF` byte never written (`40_command_control.md` R141 to R150). -/

namespace Sys2Proof.Machine

/-! ### The step of the engine -/

theorem withSchedule_self {s : State} {rest : List Event} (h : s.schedule = rest) : withSchedule rest s = s := by
  subst h
  rfl

/-- Where the engine is next, by its turn or for want of any other step, the step performs the pending word (R142, R147). -/
theorem step_of_engine_next {s : State} {w : Word} {rest : List Event} (hp : s.pending = some w)
    (hs : s.schedule = [] ∧ rest = [] ∨ s.schedule = .perform :: rest) :
    step s = performWord w (withSchedule rest s) := by
  rcases hs with ⟨hs, rfl⟩ | hs
  · rw [withSchedule_self hs]
    exact (step_of_schedule_nil hs).trans (engineStep_pending hp)
  · exact (step_of_schedule_cons hs).trans (engineStep_pending (s := withSchedule rest s) hp)

/-- `withFetchWord` latches the word itself and puts the engine's step in front (R52). -/
theorem withFetchWord_toNat (s : State) (w : Word) :
    s.withFetchWord 32 w.toNat = { s with pending := some w, schedule := .perform :: s.schedule } := by
  rw [State.withFetchWord, Nat.mod_eq_of_lt w.isLt, BitVec.ofNat_toNat, BitVec.setWidth_eq]

/-- Settles O4: in each case the engine is next, and the word it performs decodes. -/
theorem stepRunsDecodedCommand : Obligations.StepRunsDecodedCommand := by
  intro s w i hi
  have hexec {u : State} {rest : List Event} (hp : u.pending = some w)
      (hs : u.schedule = [] ∧ rest = [] ∨ u.schedule = .perform :: rest) : step u = exec i (withSchedule rest u) :=
    (step_of_engine_next hp hs).trans (performWord_of_decode hi _)
  refine ⟨fun hp hs => ?_, fun rest hp hs => hexec hp (.inr hs), ?_⟩
  · rw [hexec hp (.inl ⟨hs, rfl⟩), withSchedule_self hs]
  · rw [withFetchWord_toNat]
    exact hexec rfl (.inr rfl)

/-- Settles O14, by the meaning of `NOP`. -/
theorem nopOnlyCompletes : Obligations.NopOnlyCompletes := fun _ => rfl

/-! ### How a pending command ends -/

/-- A host access leaves a pending word in the latch (R141, R146). -/
theorem hostAccess_keeps_pending {a : Access} {s t : State} (hb : s.pending.isSome = true)
    (h : hostAccess a s = .next t) : t.pending = s.pending := by
  rw [hostAccessKeepsOperandsWhileBusy a s t hb h]

/-- A host access on a busy block leaves the steps to come. -/
theorem hostAccess_keeps_schedule {a : Access} {s t : State} (hb : s.pending.isSome = true)
    (h : hostAccess a s = .next t) : t.schedule = s.schedule := by
  rw [hostAccessKeepsOperandsWhileBusy a s t hb h]

/-- A performance that goes on empties the latch and sets `DONE` (R143, R244). -/
theorem performWord_completes {w : Word} {s t : State} (h : performWord w s = .next t) :
    t.pending = none ∧ t.done = true := by
  rcases performWord_next h with ⟨_, rfl⟩ | ⟨i, _, hi⟩
  · exact ⟨rfl, rfl⟩
  · obtain ⟨hpend, hdone, _⟩ := exec_completes hi
    exact ⟨hpend, hdone⟩

/-- Settles O13, by the agent that takes the step. -/
theorem busyEndsOnlyByPerformanceOrReset : Obligations.BusyEndsOnlyByPerformanceOrReset := by
  intro s t w hp h
  rcases step_next h with ⟨a, rest, _, ha⟩ | ⟨rest, hs, rfl⟩ | ⟨w', rest, hs, hp', hw⟩ | ⟨_, _, hp', _⟩
  · exact .inl ((hostAccess_keeps_pending (by simp [hp]) ha).trans hp)
  · exact .inr (.inr ⟨rfl, rfl, rest, hs⟩)
  · obtain rfl : w = w' := Option.some.inj (hp.symm.trans hp')
    obtain ⟨hpend, hdone⟩ := performWord_completes hw
    exact .inr (.inl ⟨hpend, hdone, rest, hs, hw⟩)
  · cases hp.symm.trans hp'

/-- Settles O12, by induction on the schedule: only a host access that goes on puts the end off, and it keeps the word
pending and uses one step of the schedule up. -/
theorem pendingCommandIsPerformed : Obligations.PendingCommandIsPerformed := by
  intro s w hp
  induction hs : s.schedule generalizing s with
  | nil =>
    refine ⟨0, s, Nat.zero_le _, (reaches_zero s s).2 rfl, hp, .inl ?_⟩
    rw [hs]
    exact step_of_engine_next hp (.inl ⟨hs, rfl⟩)
  | cons e rest ih =>
    cases e with
    | perform =>
      refine ⟨0, s, Nat.zero_le _, (reaches_zero s s).2 rfl, hp, .inl ?_⟩
      rw [hs]
      exact step_of_engine_next hp (.inr hs)
    | reset => exact ⟨0, s, Nat.zero_le _, (reaches_zero s s).2 rfl, hp, .inr (.inl ⟨rest, hs⟩)⟩
    | access a =>
      have hstep : step s = hostAccess a (withSchedule rest s) := step_of_schedule_cons hs
      cases ha : hostAccess a (withSchedule rest s) with
      | next t =>
        have hb : (withSchedule rest s).pending.isSome = true := by simp [hp]
        obtain ⟨k, u, hk, hr, hend⟩ := ih t ((hostAccess_keeps_pending hb ha).trans hp) (hostAccess_keeps_schedule hb ha)
        exact ⟨k + 1, u, Nat.succ_le_succ hk, (reaches_succ k s u).2 ⟨t, hstep.trans ha, hr⟩, hend⟩
      | fault f => exact ⟨0, s, Nat.zero_le _, (reaches_zero s s).2 rfl, hp, .inr (.inr ⟨f, hstep.trans ha⟩)⟩
      | refused r => exact absurd ha (hostAccess_ne_refused a _ r)

/-! ### Writes while `BUSY` = 1 -/

theorem Reg.isBlocked_iff (r : Reg) :
    r.isBlocked = true ↔ r ∈ [Reg.cmd, .crcPoly, .crcInit, .crcXorout, .crcCfg, .len, .seq, .frameCfg, .fileSize] := by
  cases r <;> decide

/-- A blocked register write on a busy block is acknowledged and only records `BUSY_VIOLATION` (R146). -/
theorem hostAccess_writeReg_blocked {s : State} (hb : s.pending.isSome = true) {r : Reg} (hr : r.isBlocked = true)
    (v : Word) : hostAccess (.write r.offset .b4 v) s = .next (acknowledge (blockedWrite s)) := by
  rw [hostAccess_writeReg, writeReg, State.busy, hr, hb]
  rfl

/-- A register write that is never blocked stores, at any `BUSY` value (R146). -/
theorem hostAccess_writeReg_notBlocked {r : Reg} (hr : r.isBlocked = false) (v : Word) (s : State) :
    hostAccess (.write r.offset .b4 v) s = .next (acknowledge (storeReg r v s)) := by
  rw [hostAccess_writeReg, writeReg, if_neg (by simp [hr])]

/-- A legal write of `PBUF` on a busy block is acknowledged and only records `BUSY_VIOLATION` (R146). -/
theorem hostAccess_writePbuf_blocked {off : Nat} {n : AccessSize} {s : State} (hb : s.pending.isSome = true) (v : Word)
    (h : 0x400 ≤ off) (h' : off + n.bytes ≤ 0x800) (ha : off % n.bytes = 0) :
    hostAccess (.write off n v) s = .next (acknowledge (blockedWrite s)) := by
  rw [hostAccess_writePbuf v s h h' ha, writePbuf, State.busy, if_pos hb]

/-- Settles O33, by the kinds of write: a blocked register, `PBUF`, a register that is never blocked, a reserved offset,
the `FBUF` window. -/
theorem blockedWritesRecordBusyViolation : Obligations.BlockedWritesRecordBusyViolation := by
  intro s v hb
  refine ⟨fun r hr => hostAccess_writeReg_blocked hb (r.isBlocked_iff.2 hr) v,
    fun off n h h' ha => hostAccess_writePbuf_blocked hb v h h' ha,
    hostAccess_writeReg_notBlocked (r := .ctrl) rfl v s, hostAccess_writeReg_notBlocked (r := .status) rfl v s,
    fun r hr => ?_, fun off h h' ha => hostAccess_writeReserved v s h h' ha,
    fun off n h h' ha => fbufWindowIgnoresWrites s off n v h h' ha⟩
  simp only [List.mem_cons, List.not_mem_nil, or_false] at hr
  rcases hr with rfl | rfl | rfl | rfl | rfl <;> exact hostAccess_writeReg_notBlocked rfl v s

/-- `STATUS` reads `BUSY` = 1 while a word is pending (R33). -/
theorem status_bit_zero_of_pending {s : State} (h : s.pending.isSome = true) :
    (regValue .status s).getLsbD 0 = true := (getLsbD_statusWord_zero s).trans h

/-- Settles O43: the write of `CMD` on an idle and on a busy block, and the latch after any access. -/
theorem issueLatchesAnyWord : Obligations.IssueLatchesAnyWord := by
  refine fun s w => ⟨fun hs => ?_, fun hb => hostAccess_writeReg_blocked (r := .cmd) hb rfl w, fun hb a t h => ?_⟩
  · exact ⟨_, hostAccess_writeReg_idle hs .cmd w, rfl, status_bit_zero_of_pending rfl⟩
  · have hpend := hostAccess_keeps_pending hb h
    exact ⟨hpend, status_bit_zero_of_pending (hpend ▸ hb)⟩

/-! ### Operand bytes never written -/

/-- The operand byte `PBUF[j]` when `UNINIT_READ` is `draw`: the written byte, or the free value drawn for it (R150). -/
def drawnByte (s : State) (j : Nat) : Byte :=
  match s.pbuf.read j with
  | some b => b
  | none => Config.drawByte (s.draws + unwrittenBelow s.pbuf.read j)

/-- The operand bytes `PBUF[0], …, PBUF[n−1]` when `UNINIT_READ` is `draw` (R150). -/
def drawnBytes (n : Nat) (s : State) : List Byte := (List.range n).map (drawnByte s)

@[simp] theorem drawnBytes_length (n : Nat) (s : State) : (drawnBytes n s).length = n := by simp [drawnBytes]

theorem drawnBytes_getElem? {n j : Nat} (s : State) (hj : j < n) : (drawnBytes n s)[j]? = some (drawnByte s j) := by
  simp [drawnBytes, hj]

/-- With `UNINIT_READ` = `draw`, loading gives every operand byte, and draws one free value for each unwritten one. -/
theorem loadPbuf_draw (hu : Config.uninitRead = .draw) (n : Nat) (s : State) :
    loadPbuf n s = .ok (drawnBytes n s, s.draws + unwrittenBelow s.pbuf.read n) :=
  resolve_stored_draw hu s.pbuf.read n 0 s.draws

/-- With `UNINIT_READ` = `fault`, loading stops at the lowest index never written (R150). -/
theorem loadPbuf_fault (hu : Config.uninitRead = .fault) {n k : Nat} {s : State} (hk : k < n)
    (hn : s.pbuf.read k = none) (hw : PbufWritten k s) : loadPbuf n s = .error k :=
  (resolve_stored_fault hu s.pbuf.read hk hn hw 0 s.draws).trans (by rw [Nat.zero_add])

/-- A `PBUF` that lists the bytes `data` loads them, and draws nothing. -/
theorem loadPbuf_listed {n : Nat} {data : List Byte} {s : State} (hn : data.length = n)
    (h : s.pbuf = Memory.listed 0 data) : loadPbuf n s = .ok (data, s.draws) := by
  subst hn
  have hread (j : Nat) : s.pbuf.read j = data[j]? := by rw [h, Memory.read_listed_zero]
  have hw : PbufWritten data.length s := fun k hk => by simp [hread, hk]
  have hbytes : pbufBytes data.length s = data :=
    List.ext_getElem (pbufBytes_length _ s) fun j _ hj => by simp [pbufBytes, hread, hj]
  rw [loadPbuf_written hw, hbytes]

/-- The rest of a command that reads `LEN` operand bytes: it stops at one that stops it, or `finish` makes its outcome of
the bytes (R150). -/
def afterLoad (finish : List Byte → State → State) (s : State) : Host.Outcome State Fault Refusal :=
  match loadPbuf s.len.toNat s with
  | .ok (bs, d) => .next (finish bs { s with draws := d })
  | .error k => .fault (.uninitOperand k)

/-- A load that gives its bytes leaves the rest to `finish`. -/
theorem afterLoad_of_ok {finish : List Byte → State → State} {s : State} {bs : List Byte} {d : Nat}
    (h : loadPbuf s.len.toNat s = .ok (bs, d)) : afterLoad finish s = .next (finish bs { s with draws := d }) := by
  rw [afterLoad, h]

/-- The state with `PBUF` = `m`, and `d` free values drawn. -/
def withPbuf (m : Memory) (d : Nat) (s : State) : State := { s with pbuf := m, draws := d }

/-- `finish` leaves `PBUF` and the count of free values alone and does not look at them. -/
def IgnoresPbuf (finish : List Byte → State → State) : Prop :=
  ∀ bs m d u, finish bs (withPbuf m d u) = withPbuf m d (finish bs u)

/-- With `UNINIT_READ` = `fault`, the command stops at the lowest index never written. -/
theorem afterLoad_fault (hu : Config.uninitRead = .fault) {finish : List Byte → State → State} {s : State} {k : Nat}
    (hk : k < s.len.toNat) (hn : s.pbuf.read k = none) (hw : PbufWritten k s) :
    afterLoad finish s = .fault (.uninitOperand k) := by rw [afterLoad, loadPbuf_fault hu hk hn hw]

/-- With `UNINIT_READ` = `draw`, the command goes on as on a `PBUF` that lists the bytes drawn, but leaves `PBUF` as it was
and counts the free values. -/
theorem afterLoad_draw (hu : Config.uninitRead = .draw) {finish : List Byte → State → State} (hf : IgnoresPbuf finish)
    (s : State) :
    ∃ t, afterLoad finish { s with pbuf := Memory.listed 0 (drawnBytes s.len.toNat s) } = .next t ∧
      afterLoad finish s =
        .next { t with pbuf := s.pbuf, draws := s.draws + unwrittenBelow s.pbuf.read s.len.toNat } := by
  refine ⟨_, afterLoad_of_ok (loadPbuf_listed (drawnBytes_length _ s) rfl), ?_⟩
  rw [afterLoad_of_ok (loadPbuf_draw hu s.len.toNat s)]
  exact congrArg Host.Outcome.next
    (hf _ s.pbuf _ (withPbuf (Memory.listed 0 (drawnBytes s.len.toNat s)) s.draws s))

/-- `CALC_BUF` past its check (R180). -/
theorem execCalcBuf_afterLoad {s : State} (h : s.len.toNat ≤ 1024) :
    execCalcBuf s = afterLoad (fun bs u => complete (feedAll bs u)) s := by
  rw [execCalcBuf, if_neg (show ¬ Config.pbufSize < s.len.toNat from not_lt.2 h)]
  rfl

/-- `FRAME` past its checks (R200, R202, R203). -/
theorem execFrame_afterLoad {s : State} {tr : Trailer} (htr : s.frameScheme.trailer? = some tr)
    (h : s.len.toNat ≤ s.frameType.cap) :
    execFrame s = afterLoad (fun bs u => complete (writeFrame (buildFrame s.frameType s.seq bs tr) u)) s := by
  rw [execFrame, htr]
  dsimp only
  rw [if_neg (not_lt.2 h)]
  rfl

/-- `FRAME_YHDR` with a filename, past its checks (R210, R213). -/
theorem execFrameYhdr_afterLoad {s : State} {tr : Trailer} (htr : s.frameScheme.trailer? = some tr)
    (h0 : 0 < s.len.toNat) (h : s.len.toNat + 1 + (dec s.fileSize).length ≤ 1024) :
    execFrameYhdr s =
      afterLoad (fun bs u => complete (writeFrame (buildFrame .stx 0#8 (headerData bs s.fileSize) tr) u)) s := by
  have hne : s.len ≠ 0#16 := fun he => by simp [he] at h0
  rw [execFrameYhdr, htr]
  dsimp only
  rw [if_neg hne, if_neg (show ¬ Config.capStx < _ from not_lt.2 h)]
  rfl

/-- Both checksum schemes have a trailer (R201, R202). -/
theorem Scheme.trailer?_of_framing {c : Scheme} (h : c = .additive ∨ c = .crc16) : ∃ tr, c.trailer? = some tr := by
  rcases h with rfl | rfl
  · exact ⟨.checksum, rfl⟩
  · exact ⟨.crc, rfl⟩

/-- The operands but for `PBUF` pass every check of a command that reads operand bytes (R247). -/
def PassesChecks (i : Instr) (s : State) : Prop :=
  (i = .calcBuf ∧ s.len.toNat ≤ 1024) ∨
  ((s.frameScheme = .additive ∨ s.frameScheme = .crc16) ∧
    ((i = .frame ∧ s.len.toNat ≤ s.frameType.cap) ∨
      (i = .frameYhdr ∧ s.len.toNat + 1 + (dec s.fileSize).length ≤ 1024)))

/-- Past its checks a command loads its operand bytes, and makes its outcome of them without looking at `PBUF` again. -/
theorem exec_of_passesChecks {i : Instr} {s : State} (h : PassesChecks i s) (h0 : 0 < s.len.toNat) :
    ∃ finish, IgnoresPbuf finish ∧ ∀ m, exec i { s with pbuf := m } = afterLoad finish { s with pbuf := m } := by
  rcases h with ⟨rfl, hlen⟩ | ⟨hscheme, hi⟩
  · refine ⟨_, fun bs m d u => ?_, fun m => execCalcBuf_afterLoad (s := { s with pbuf := m }) hlen⟩
    rw [feedAll_eq, feedAll_eq]
    rfl
  · obtain ⟨tr, htr⟩ := Scheme.trailer?_of_framing hscheme
    rcases hi with ⟨rfl, hlen⟩ | ⟨rfl, hlen⟩
    · exact ⟨fun bs u => complete (writeFrame (buildFrame s.frameType s.seq bs tr) u), fun _ _ _ _ => rfl,
        fun m => execFrame_afterLoad (s := { s with pbuf := m }) htr hlen⟩
    · exact ⟨fun bs u => complete (writeFrame (buildFrame .stx 0#8 (headerData bs s.fileSize) tr) u), fun _ _ _ _ => rfl,
        fun m => execFrameYhdr_afterLoad (s := { s with pbuf := m }) htr h0 hlen⟩

/-- Settles O24: past its checks the command depends on what loading its operand bytes gives, and the bytes drawn load
again from a `PBUF` that lists them. -/
theorem unwrittenOperandFollowsUninitRead : Obligations.UnwrittenOperandFollowsUninitRead := by
  intro s i k hchecks hk hnone hw
  obtain ⟨finish, hfinish, hexec⟩ := exec_of_passesChecks hchecks (Nat.zero_lt_of_lt hk)
  cases hu : Config.uninitRead with
  | fault => exact (hexec s.pbuf).trans (afterLoad_fault hu hk hnone hw)
  | draw =>
    obtain ⟨t, hlisted, ht⟩ := afterLoad_draw hu hfinish s
    exact ⟨drawnBytes s.len.toNat s, t, drawnBytes_length _ s, fun j hj => drawnBytes_getElem? s hj,
      (hexec _).trans hlisted, (hexec s.pbuf).trans ht⟩

end Sys2Proof.Machine
end

section
/-! PROOF. The arithmetic of the engine, bit by bit: masking, reflection, the turn of the CRC loop, the byte step as a
fold of turns over the bits of a byte, the output function and the additive checksum (`41_crc_checksum.md` section 1).
-/

namespace Sys2Proof.Machine

/-! ### Masks and reflection -/

@[simp] theorem and_mask_and_mask (x : Word) (w : Nat) : x &&& mask w &&& mask w = x &&& mask w := by
  rw [BitVec.and_assoc, BitVec.and_self]

/-- Masking leaves the bits below `W` and clears the others (R170). -/
theorem getLsbD_and_mask (x : Word) (w i : Nat) : (x &&& mask w).getLsbD i = (decide (i < w) && x.getLsbD i) := by
  rw [← BitVec.testBit_toNat, toNat_and_mask, Nat.testBit_mod_two_pow, BitVec.testBit_toNat]

theorem xor_and_mask (x y : Word) (w : Nat) : (x ^^^ y) &&& mask w = (x &&& mask w) ^^^ (y &&& mask w) := by
  apply BitVec.eq_of_getLsbD_eq
  intro i _
  simp only [BitVec.getLsbD_and, BitVec.getLsbD_xor, Bool.and_xor_distrib_right]

/-- Reflecting twice gives back the `n` low bits (R171). -/
theorem reflect_reflect {n : Nat} (hn : n ≤ 32) (v : Word) : reflect n (reflect n v) = v &&& mask n := by
  apply BitVec.eq_of_getLsbD_eq
  intro i _
  rw [getLsbD_reflect n _ i hn, getLsbD_reflect n v _ hn, getLsbD_and_mask]
  by_cases h : i < n
  · simp [h, show n - 1 - i < n by omega, show n - 1 - (n - 1 - i) = i by omega]
  · simp [h]

/-- Bit `i` of `reflect_8` of a byte is its bit `7 − i` (R171). -/
theorem getLsbD_reflectByte (b : Byte) {i : Nat} (hi : i < 8) : (reflectByte b).getLsbD i = b.getLsbD (7 - i) := by
  rw [reflectByte, BitVec.getLsbD_setWidth, getLsbD_reflect 8 _ i (by omega), BitVec.getLsbD_setWidth]
  simp [hi, show 7 - i < 32 by omega]

/-- Settles O48, from the bits of a reflection. -/
theorem reflectionReversesBits : Obligations.ReflectionReversesBits :=
  ⟨getLsbD_reflect, fun _ v hn => reflect_reflect hn v, fun b _ hi => getLsbD_reflectByte b hi, by decide⟩

/-! ### One turn of the loop -/

/-- One turn as an xor of two parts: the shifted register, and the polynomial or nothing. -/
theorem crcBit_eq_xor (w : Nat) (poly acc : Word) (bit : Bool) :
    crcBit w poly acc bit =
      (acc <<< 1 &&& mask w) ^^^ (if (acc.getLsbD (w - 1) ^^ bit) then poly &&& mask w else 0#32) := by
  unfold crcBit
  cases acc.getLsbD (w - 1) <;> cases bit <;> simp

theorem ite_xor_zero (p : Word) (a b : Bool) :
    (if (a ^^ b) then p else 0#32) = (if a then p else 0#32) ^^^ (if b then p else 0#32) := by
  cases a <;> cases b <;> simp

/-- One turn is linear over GF(2) in the register and the incoming bit together (R181). -/
theorem crcBit_xor (w : Nat) (poly a a' : Word) (x x' : Bool) :
    crcBit w poly (a ^^^ a') (x ^^ x') = crcBit w poly a x ^^^ crcBit w poly a' x' := by
  simp only [crcBit_eq_xor, ite_xor_zero, BitVec.getLsbD_xor, BitVec.shiftLeft_xor_distrib, xor_and_mask]
  ac_rfl

/-- Only the `W` low bits of the polynomial enter a turn (R177). -/
theorem crcBit_poly_and_mask (w : Nat) (poly : Word) : crcBit w (poly &&& mask w) = crcBit w poly := by
  funext acc bit
  simp [crcBit_eq_xor]

/-- Only the `W` low bits of the register enter a turn (R177). -/
theorem crcBit_acc_and_mask (w : Nat) (poly acc : Word) (bit : Bool) :
    crcBit w poly (acc &&& mask w) bit = crcBit w poly acc bit := by
  cases w with
  | zero => simp [crcBit, mask]
  | succ w =>
    have htop : (acc &&& mask (w + 1)).getLsbD w = acc.getLsbD w := by
      rw [getLsbD_and_mask, decide_eq_true (Nat.lt_succ_self w), Bool.true_and]
    have hshift : (acc &&& mask (w + 1)) <<< 1 &&& mask (w + 1) = acc <<< 1 &&& mask (w + 1) := by
      apply BitVec.eq_of_getLsbD_eq
      intro i _
      simp only [getLsbD_and_mask, BitVec.getLsbD_shiftLeft]
      by_cases h : i < w + 1
      · simp [h, show i - 1 < w + 1 by omega]
      · simp [h]
    rw [crcBit_eq_xor, crcBit_eq_xor, Nat.add_sub_cancel, htop, hshift]

/-! ### One byte -/

/-- The bit of `b` that enters the register where the loop of `crc_step` has its index at `i` (R172). -/
def enteringBit (refin : Bool) (b : Byte) (i : Nat) : Bool := b.getLsbD (if refin then 7 - i else i)

/-- One byte is the turns of its eight bits, one after the other (R172). -/
theorem crcStep_eq_foldl (acc : Word) (b : Byte) (w : Nat) (poly : Word) (refin : Bool) :
    crcStep acc b w poly refin =
      [7, 6, 5, 4, 3, 2, 1, 0].foldl (fun a i => crcBit w poly a (enteringBit refin b i)) acc := by
  cases refin with
  | false => rfl
  | true => simp [crcStep, bitsMsbFirst, enteringBit, getLsbD_reflectByte, -BitVec.getLsbD_eq_getElem]

theorem foldl_crcBit_xor (w : Nat) (poly : Word) (f g : Nat → Bool) (is : List Nat) (a a' : Word) :
    is.foldl (fun a i => crcBit w poly a (f i ^^ g i)) (a ^^^ a') =
      is.foldl (fun a i => crcBit w poly a (f i)) a ^^^ is.foldl (fun a i => crcBit w poly a (g i)) a' := by
  induction is generalizing a a' with
  | nil => rfl
  | cons i is ih => simp only [List.foldl_cons, crcBit_xor, ih]

/-- Settles O46: each turn is linear, and so is the bit that enters it. -/
theorem crcStepIsLinear : Obligations.CrcStepIsLinear := by
  intro acc acc' b b' w poly refin
  have hbit (i : Nat) : enteringBit refin (b ^^^ b') i = (enteringBit refin b i ^^ enteringBit refin b' i) :=
    BitVec.getLsbD_xor
  simp only [crcStep_eq_foldl, hbit]
  exact foldl_crcBit_xor w poly _ _ _ acc acc'

/-- Settles O45: no turn sees a high bit of the polynomial, and the first one sees none of the register. -/
theorem highBitsNeverReachAResult : Obligations.HighBitsNeverReachAResult := by
  intro acc poly xorout b w refin refout
  constructor
  · simp only [crcStep, bitsMsbFirst, List.foldl_cons, crcBit_poly_and_mask, crcBit_acc_and_mask]
  · simp only [crcFinal, xor_and_mask, and_mask_and_mask]

/-- The turn of R172 on numbers: the bit shifted out and the bit `x` entering differ exactly when their sum is odd. -/
theorem toNat_crcBit_of_le {w : Nat} (hw : w ≤ 32) (poly acc : Word) (x : Nat) :
    (crcBit w poly acc (decide (x % 2 = 1))).toNat =
      if (acc.toNat / 2 ^ (w - 1) + x) % 2 = 1 then 2 * acc.toNat % 2 ^ w ^^^ poly.toNat % 2 ^ w
      else 2 * acc.toNat % 2 ^ w := by
  have hodd : (acc.toNat.testBit (w - 1) != decide (x % 2 = 1)) = true ↔ (acc.toNat / 2 ^ (w - 1) + x) % 2 = 1 := by
    rw [Nat.testBit_eq_decide_div_mod_eq, bne_iff_ne, ne_eq, decide_eq_decide]
    omega
  rw [toNat_crcBit, Nat.mod_mod_of_dvd _ (Nat.pow_dvd_pow 2 hw)]
  simp only [hodd]

theorem enteringBit_eq_decide (refin : Bool) (b : Byte) (i : Nat) :
    enteringBit refin b i = decide ((if refin then b.toNat / 2 ^ (7 - i) else b.toNat / 2 ^ i) % 2 = 1) := by
  cases refin <;> exact (BitVec.testBit_toNat b).symm.trans Nat.testBit_eq_decide_div_mod_eq

/-- Settles O44: the numbers of the loop are those of the register, turn by turn. -/
theorem crcStepIsBitSerial : Obligations.CrcStepIsBitSerial := by
  intro acc b w poly refin _ hw
  refine ⟨?_, crcStep_lt acc b w poly refin⟩
  rw [crcStep_eq_foldl]
  refine (List.foldl_hom BitVec.toNat fun a i => ?_).symm
  rw [enteringBit_eq_decide, toNat_crcBit_of_le hw]

/-! ### The output function -/

/-- Settles O47: the masks leave the bits below `W`, and a reflection reverses them. -/
theorem crcFinalBits : Obligations.CrcFinalBits := by
  intro acc w refout xorout i _ hw
  rw [crcFinal, getLsbD_and_mask]
  by_cases h : i < w
  · have hrev : w - 1 - i < w := by omega
    cases refout <;> simp only [BitVec.getLsbD_xor, if_true, Bool.false_eq_true, if_false, getLsbD_reflect w _ _ hw,
      getLsbD_and_mask, h, hrev, decide_true, Bool.true_and]
  · simp [h]

theorem crcFinal_lt (acc : Word) (w : Nat) (refout : Bool) (xorout : Word) :
    (crcFinal acc w refout xorout).toNat < 2 ^ w := and_mask_lt _ w

/-- `crc16x` loses no bit of its output function, which is below `2^16` (R174). -/
theorem setWidth_crc16x (s : List Byte) :
    (crc16x s).setWidth 32 = crcFinal (crcSteps 16 0x1021#32 false 0#32 s) 16 false 0#32 := by
  have hlt := crcFinal_lt (crcSteps 16 0x1021#32 false 0#32 s) 16 false 0#32
  apply BitVec.eq_of_toNat_eq
  simp only [crc16x, BitVec.toNat_setWidth]
  omega

/-! ### Zero bytes -/

theorem zeros_succ (n : Nat) : zeros (n + 1) = 0#8 :: zeros n := rfl

/-- A zero byte keeps a zero register at zero, as linearity asks. -/
theorem crcStep_zero (w : Nat) (poly : Word) (refin : Bool) : crcStep 0#32 0#8 w poly refin = 0#32 := by
  simpa using crcStepIsLinear 0#32 0#32 0#8 0#8 w poly refin

theorem crcSteps_zeros (w : Nat) (poly : Word) (refin : Bool) (n : Nat) :
    crcSteps w poly refin 0#32 (zeros n) = 0#32 := by
  induction n with
  | zero => rfl
  | succ n ih => rw [zeros_succ, crcSteps_cons, crcStep_zero, ih]

/-- Settles O50: the bytes after the leading zeros find the register at zero, where they would start. -/
theorem leadingZeroBytesKeepTheCrc : Obligations.LeadingZeroBytesKeepTheCrc := by
  refine ⟨fun w poly n => crcSteps_zeros w poly false n, fun n => ?_, fun n s => ?_⟩
  · rw [crc16x, crcSteps_zeros]
    decide
  · rw [crc16x, crcSteps_append, crcSteps_zeros, ← crc16x]

/-! ### The additive checksum -/

theorem toNat_sum8 (s : List Byte) : (sum8 s).toNat = (s.map BitVec.toNat).sum % 256 := by
  induction s with
  | nil => rfl
  | cons b s ih => rw [sum8_cons, BitVec.toNat_add, ih, List.map_cons, List.sum_cons, Nat.add_mod_mod]

@[simp] theorem sum8_zeros (n : Nat) : sum8 (zeros n) = 0#8 := by
  induction n with
  | zero => rfl
  | succ n ih => rw [zeros_succ, sum8_cons, ih, BitVec.add_zero]

/-- Settles O49, by induction over the bytes and over the padding. -/
theorem sumIsModulo256AndIgnoresPadding : Obligations.SumIsModulo256AndIgnoresPadding :=
  ⟨toNat_sum8, sum8_nil, fun s n => by rw [sum8_append, sum8_zeros, BitVec.add_zero]⟩

end Sys2Proof.Machine
end

section
/-! PROOF. The engine commands: the full next state of `CALC_INIT`, `CALC_BYTE` and `CALC_BUF`, and the functions that a
run of them computes (`41_crc_checksum.md` section 2). -/

namespace Sys2Proof.Machine

/-- The accumulators as `CALC_INIT` leaves them (R176). -/
def initAccumulators (s : State) : State := { s with crcAcc := s.crcInit &&& mask s.width, sumAcc := 0#8 }

theorem exec_calcInit (s : State) : exec .calcInit s = .next (complete (initAccumulators s)) := rfl

theorem exec_calcByte (imm : Nat) (s : State) :
    exec (.calcByte imm) s = .next (complete (feed s (BitVec.ofNat 8 imm))) := rfl

/-- `CALC_BUF` within its bound, with its operand bytes written (R180). -/
theorem exec_calcBuf_written {s : State} (h : s.len.toNat ≤ 1024) (hw : PbufWritten s.len.toNat s) :
    exec .calcBuf s = .next (complete (feedAll (pbufBytes s.len.toNat s) s)) :=
  (execCalcBuf_afterLoad h).trans (afterLoad_of_ok (loadPbuf_written hw))

/-! ### One command -/

/-- Settles O15: masking is taking the value modulo `2^W`. -/
theorem calcInitLoadsMaskedInit : Obligations.CalcInitLoadsMaskedInit := by
  intro s
  have hacc : s.crcInit &&& mask s.width = BitVec.ofNat 32 (s.crcInit.toNat % 2 ^ s.width) := by
    rw [← toNat_and_mask, BitVec.ofNat_toNat, BitVec.setWidth_eq]
  rw [exec_calcInit, initAccumulators, hacc]
  rfl

/-- Settles O16, by the meaning of `CALC_BYTE`: adding bytes is adding modulo 256. -/
theorem calcByteFeedsItsByte : Obligations.CalcByteFeedsItsByte := by
  intro s imm _
  have hsum : s.sumAcc + BitVec.ofNat 8 imm = BitVec.ofNat 8 ((s.sumAcc.toNat + imm) % 256) := by
    apply BitVec.eq_of_toNat_eq
    simp
  rw [exec_calcByte, feed, hsum]
  rfl

/-- Settles O17: written bytes load as they are, and `sum8` adds modulo 256. -/
theorem calcBufFeedsLenBytes : Obligations.CalcBufFeedsLenBytes := by
  intro s hlen hw
  have hsum (bs : List Byte) :
      s.sumAcc + sum8 bs = BitVec.ofNat 8 ((s.sumAcc.toNat + (bs.map BitVec.toNat).sum) % 256) := by
    apply BitVec.eq_of_toNat_eq
    simp [toNat_sum8]
  rw [exec_calcBuf_written hlen hw, feedAll_eq, hsum]
  rfl

/-! ### A run of commands -/

theorem execAll_cons_of_next {i : Instr} {s t : State} (h : exec i s = .next t) (is : List Instr) :
    execAll (i :: is) s = execAll is t := by rw [execAll, h]

/-- One `CALC_BYTE` for each byte, after a completed command, feeds the bytes (R178). -/
theorem execAll_calcBytes (bytes : List Byte) (s : State) :
    execAll (bytes.map fun b => .calcByte b.toNat) (complete s) = .next (complete (feedAll bytes s)) := by
  induction bytes generalizing s with
  | nil => rfl
  | cons b bytes ih =>
    have hb : exec (.calcByte b.toNat) (complete s) = .next (complete (feed s b)) := by
      rw [exec_calcByte, BitVec.ofNat_toNat, BitVec.setWidth_eq]
      rfl
    exact (execAll_cons_of_next hb _).trans (ih (feed s b))

/-- Both ways of feeding the bytes after `CALC_INIT` reach one state (R179). -/
theorem execAll_calcInit_then_feed {s : State} {bytes : List Byte} {is : List Instr}
    (h : is = bytes.map (fun b => Instr.calcByte b.toNat) ∨
      (is = [.calcBuf] ∧ s.len.toNat ≤ 1024 ∧ PbufWritten s.len.toNat s ∧ bytes = pbufBytes s.len.toNat s)) :
    execAll (.calcInit :: is) s = .next (complete (feedAll bytes (initAccumulators s))) := by
  rw [execAll_cons_of_next (exec_calcInit s)]
  rcases h with rfl | ⟨rfl, hlen, hw, rfl⟩
  · exact execAll_calcBytes bytes (initAccumulators s)
  · have hbuf := exec_calcBuf_written (s := complete (initAccumulators s)) hlen hw
    rw [execAll_cons_of_next hbuf, feedAll_eq, feedAll_eq]
    rfl

/-- Settles O51: the state both runs reach, with `crc16x` as the case of the reset configuration. -/
theorem engineComputesTheFunctions : Obligations.EngineComputesTheFunctions := by
  intro s bytes is h
  have hrun := execAll_calcInit_then_feed h
  rw [feedAll_eq] at hrun
  refine ⟨_, hrun, ?_, rfl, ?_⟩
  · simp [initAccumulators, complete]
  · rintro ⟨hpoly, hinit, hxor, hwidth, hrefin, hrefout⟩
    rw [setWidth_crc16x]
    simp [regValue, crcResult, initAccumulators, State.width, hpoly, hinit, hxor, hwidth, hrefin, hrefout]

end Sys2Proof.Machine
end

section
/-! PROOF. The framer: the bytes of `FBUF` that holds a packet, the two framing commands as functions of their operands,
the decimal digits of `FILE_SIZE`, and `SEQ_INC` (`42_framer.md`). -/

namespace Sys2Proof.Machine

/-! ### The packet in `FBUF` -/

/-- `m` holds the packet of type `t`, sequence number `seq`, payload `p` and trailer `tr`, and then zeros (R201,
R205). -/
structure PacketBytes (m : Memory) (t : PacketType) (seq : Byte) (p : List Byte) (tr : Trailer) : Prop where
  typeByte : m.read 0 = some t.byte
  seqByte : m.read 1 = some seq
  complementByte : m.read 2 = some (255#8 - seq)
  payload : ∀ k < t.cap, m.read (3 + k) = p[k]?
  trailer : ∀ j < tr.size, m.read (3 + t.cap + j) = (trailerBytes tr p)[j]?
  padding : ∀ k, 3 + t.cap + tr.size ≤ k → k ≤ 1028 → m.read k = some 0#8

@[simp] theorem frameHeader_length (t : PacketType) (seq : Byte) : (frameHeader t seq).length = 3 := rfl

theorem zeros_getElem? {n k : Nat} (h : k < n) : (zeros n)[k]? = some 0#8 := by simp [zeros, h]

/-- A packet and then zeros, listed from index 0, is held byte by byte. -/
theorem packetBytes_listed {t : PacketType} {p : List Byte} (hp : p.length = t.cap) (seq : Byte) (tr : Trailer)
    {f : List Byte} (hf : f = frameHeader t seq ++ p ++ trailerBytes tr p) :
    PacketBytes (Memory.listed 0 (f ++ zeros (Config.fbufSize - f.length))) t seq p tr := by
  have hlen : f.length = 3 + t.cap + tr.size := by simp [hf, hp, Nat.add_assoc]
  have hin {k : Nat} (hk : k < f.length) :
      (Memory.listed 0 (f ++ zeros (Config.fbufSize - f.length))).read k = f[k]? := by
    rw [Memory.read_listed_zero, List.getElem?_append_left hk]
  refine ⟨?_, ?_, ?_, fun k hk => ?_, fun j hj => ?_, fun k hk hk' => ?_⟩
  · rw [hin (by omega), hf]; rfl
  · rw [hin (by omega), hf]; rfl
  · rw [hin (by omega), hf]; rfl
  · rw [hin (by omega), hf, List.append_assoc, List.getElem?_append_right (by simp),
      List.getElem?_append_left (by simp; omega)]
    simp
  · rw [hin (by omega), hf, List.getElem?_append_right (by simp [hp])]
    simp [hp]
  · rw [Memory.read_listed_zero, List.getElem?_append_right (by omega), zeros_getElem?]
    simp only [Config.fbufSize]
    omega

/-- A padded payload reads as its data and then zeros, to the capacity (R206). -/
theorem paddedPayload_getElem? {t : PacketType} (data : List Byte) {k : Nat} (hk : k < t.cap) :
    (paddedPayload t data)[k]? = if k < data.length then data[k]? else some 0#8 := by
  unfold paddedPayload
  split
  · next h => exact List.getElem?_append_left h
  · next h => rw [List.getElem?_append_right (not_lt.1 h), zeros_getElem? (by omega)]

theorem trailerBytes_zeros (tr : Trailer) (n : Nat) : trailerBytes tr (zeros n) = zeros tr.size := by
  obtain ⟨_, hcrc, _⟩ := leadingZeroBytesKeepTheCrc
  cases tr with
  | checksum => rw [trailerBytes, sum8_zeros]; rfl
  | crc => rw [trailerBytes, hcrc n]; rfl

section
variable {m : Memory} {t : PacketType} {seq : Byte} {data : List Byte} {tr : Trailer}

/-- The data of a frame stands right after the header (R201). -/
theorem PacketBytes.read_data (h : PacketBytes m t seq (paddedPayload t data) tr) (hfit : data.length ≤ t.cap) {k : Nat}
    (hk : k < data.length) : m.read (3 + k) = data[k]? := by
  rw [h.payload k (hk.trans_le hfit), paddedPayload_getElem? data (hk.trans_le hfit), if_pos hk]

/-- Zeros fill the payload after the data (R206). -/
theorem PacketBytes.read_fill (h : PacketBytes m t seq (paddedPayload t data) tr) {k : Nat} (hk : data.length ≤ k)
    (hk' : k < t.cap) : m.read (3 + k) = some 0#8 := by
  rw [h.payload k hk', paddedPayload_getElem? data hk', if_neg (not_lt.2 hk)]

/-- The trailer and `FRAME_LEN` of the packet a frame leaves, by the scheme (R201). -/
theorem PacketBytes.trailer_of_scheme {p : List Byte} {c : Scheme} {len : BitVec 11} (h : PacketBytes m t seq p tr)
    (hlen : len.toNat = 3 + t.cap + tr.size) (htr : c.trailer? = some tr) :
    (c = .additive → len.toNat = 3 + t.cap + 1 ∧ m.read (3 + t.cap) = some (sum8 p)) ∧
    (c = .crc16 → len.toNat = 3 + t.cap + 2 ∧ m.read (3 + t.cap) = some ((crc16x p).extractLsb' 8 8) ∧
      m.read (3 + t.cap + 1) = some ((crc16x p).extractLsb' 0 8)) := by
  constructor
  · rintro rfl
    cases htr
    exact ⟨hlen, h.trailer 0 (by decide)⟩
  · rintro rfl
    cases htr
    exact ⟨hlen, h.trailer 0 (by decide), h.trailer 1 (by decide)⟩

/-- A zero payload has a zero trailer, so the packet is zero past its header (R182). -/
theorem PacketBytes.read_zero (h : PacketBytes m t seq (zeros t.cap) tr) {k : Nat} (hk : 3 ≤ k) (hk' : k ≤ 1028) :
    m.read k = some 0#8 := by
  obtain ⟨i, rfl⟩ := Nat.exists_eq_add_of_le hk
  by_cases hi : i < t.cap
  · rw [h.payload i hi, zeros_getElem? hi]
  · obtain ⟨j, rfl⟩ := Nat.exists_eq_add_of_le (not_lt.1 hi)
    by_cases hj : j < tr.size
    · rw [← Nat.add_assoc, h.trailer j hj, trailerBytes_zeros, zeros_getElem? hj]
    · exact h.padding _ (by omega) hk'

end

theorem IsPacket.length_pos {f : List Byte} (h : IsPacket f) : 0 < f.length := by
  obtain ⟨t, seq, p, tr, _, rfl⟩ := h
  simp

/-- The 11 bits of `FRAME_LEN` hold the length of every packet (R47). -/
theorem IsPacket.toNat_frameLen {f : List Byte} (h : IsPacket f) : (BitVec.ofNat 11 f.length).toNat = f.length := by
  have hle : f.length ≤ 1029 := h.length_le
  rw [BitVec.toNat_ofNat, Nat.mod_eq_of_lt (by omega)]

/-- A framing command that writes a packet changes `FBUF`, `FRAME_LEN` and the completion, and nothing else (R205). -/
theorem complete_writeFrame_changes (f : List Byte) (s : State) :
    complete (writeFrame f s) =
      { s with
        fbuf := (complete (writeFrame f s)).fbuf
        frameLen := (complete (writeFrame f s)).frameLen
        pending := none
        done := true } := rfl

/-- `FBUF` and `FRAME_LEN` after the completion of a framing command (R201, R205). -/
theorem packetBytes_complete {t : PacketType} {data : List Byte} (h : data.length ≤ t.cap) (seq : Byte) (tr : Trailer)
    (s : State) :
    PacketBytes (complete (writeFrame (buildFrame t seq data tr) s)).fbuf t seq (paddedPayload t data) tr ∧
    (complete (writeFrame (buildFrame t seq data tr) s)).frameLen.toNat = 3 + t.cap + tr.size := by
  refine ⟨packetBytes_listed (paddedPayload_length h) seq tr rfl, ?_⟩
  rw [complete_frameLen, writeFrame_frameLen, (buildFrame_isPacket h seq tr).toNat_frameLen]
  simp [buildFrame, paddedPayload_length h, Nat.add_assoc]

/-- Settles O11: a step leaves `FBUF` and `FRAME_LEN`, empties them, or writes a packet with its length. -/
theorem stepKeepsPacketInFbuf : Obligations.StepKeepsPacketInFbuf := by
  intro s t hs h
  rcases step_fbuf h with ⟨hf, hl⟩ | ⟨hf, hl⟩ | ⟨f, hp, hf, hl⟩
  · rwa [FbufHoldsPacket, hf, hl]
  · exact .inl ⟨hl, hf⟩
  · exact .inr ⟨f, hp, by rw [hl, hp.toNat_frameLen], hf⟩

/-! ### The framing commands as functions of their operands -/

/-- What `FRAME` makes of its operands: an error, or the packet (R200, R202, R203). -/
def framePacket (c : Scheme) (t : PacketType) (seq : Byte) (data : List Byte) : Except ErrCode (List Byte) :=
  match c.trailer? with
  | none => .error .badScheme
  | some tr => if t.cap < data.length then .error .payloadTooLarge else .ok (buildFrame t seq data tr)

/-- What `FRAME_YHDR` makes of its operands: an error, the end-of-batch packet, or the header packet (R210, R213). -/
def headerPacket (c : Scheme) (size : Word) (name : List Byte) : Except ErrCode (List Byte) :=
  match c.trailer? with
  | none => .error .badScheme
  | some tr =>
    if name.length = 0 then .ok (buildFrame .stx 0#8 (zeros Config.capStx) tr)
    else if Config.capStx < name.length + 1 + (dec size).length then .error .payloadTooLarge
    else .ok (buildFrame .stx 0#8 (headerData name size) tr)

/-- The completion of a framing command: the error recorded, or the packet written (R205, R244). -/
def finishFraming (r : Except ErrCode (List Byte)) (s : State) : State :=
  match r with
  | .error c => errorComplete c s
  | .ok f => complete (writeFrame f s)

theorem exec_frame_written {s : State} (hw : PbufWritten s.len.toNat s) :
    exec .frame s =
      .next (finishFraming (framePacket s.frameScheme s.frameType s.seq (pbufBytes s.len.toNat s)) s) := by
  change execFrame s = _
  rw [execFrame, framePacket, loadPbuf_written hw, pbufBytes_length]
  cases s.frameScheme.trailer? with
  | none => rfl
  | some tr =>
    dsimp only
    split <;> rfl

theorem exec_frameYhdr_written {s : State} (hw : PbufWritten s.len.toNat s) :
    exec .frameYhdr s =
      .next (finishFraming (headerPacket s.frameScheme s.fileSize (pbufBytes s.len.toNat s)) s) := by
  have hzero : s.len = 0#16 ↔ s.len.toNat = 0 := BitVec.toNat_eq
  change execFrameYhdr s = _
  rw [execFrameYhdr, headerPacket, loadPbuf_written hw, pbufBytes_length]
  simp only [hzero]
  cases s.frameScheme.trailer? with
  | none => rfl
  | some tr =>
    dsimp only
    split
    · rfl
    · split <;> rfl

theorem headerData_length (name : List Byte) (size : Word) :
    (headerData name size).length = name.length + 1 + (dec size).length := by
  simp only [headerData, List.length_append, List.length_singleton]

theorem framePacket_isPacket {c : Scheme} {t : PacketType} {seq : Byte} {data f : List Byte}
    (h : framePacket c t seq data = .ok f) : IsPacket f := by
  unfold framePacket at h
  split at h
  · cases h
  · split at h
    · cases h
    · next hcap => cases h; exact buildFrame_isPacket (not_lt.1 hcap) seq _

theorem headerPacket_isPacket {c : Scheme} {size : Word} {name f : List Byte}
    (h : headerPacket c size name = .ok f) : IsPacket f := by
  unfold headerPacket at h
  split at h
  · cases h
  · split at h
    · cases h; exact buildFrame_isPacket (by simp [PacketType.cap]) _ _
    · split at h
      · cases h
      · next hcap =>
        cases h
        exact buildFrame_isPacket (by rw [headerData_length]; exact not_lt.1 hcap) _ _

/-- The completion of a framing command shows nothing of the state it acts on but, after an error, the old packet. -/
theorem finishFraming_agrees {r : Except ErrCode (List Byte)} (hr : ∀ f, r = .ok f → IsPacket f) (s s' : State) :
    ((finishFraming r s).fbuf = (finishFraming r s').fbuf ∧
      (finishFraming r s).frameLen = (finishFraming r s').frameLen ∧ (finishFraming r s).frameLen ≠ 0#11) ∨
    ((finishFraming r s).fbuf = s.fbuf ∧ (finishFraming r s).frameLen = s.frameLen ∧ (finishFraming r s).err = true ∧
      (finishFraming r s').fbuf = s'.fbuf ∧ (finishFraming r s').frameLen = s'.frameLen ∧
      (finishFraming r s').err = true) := by
  cases r with
  | error c => exact .inr ⟨rfl, rfl, rfl, rfl, rfl, rfl⟩
  | ok f =>
    refine .inl ⟨rfl, rfl, fun h0 => ?_⟩
    have hlen := (hr f rfl).toNat_frameLen
    have hpos := (hr f rfl).length_pos
    rw [show BitVec.ofNat 11 f.length = 0#11 from h0, BitVec.toNat_ofNat] at hlen
    omega

theorem pbufBytes_congr {n : Nat} {s s' : State} (h : ∀ k < n, s.pbuf.read k = s'.pbuf.read k) :
    pbufBytes n s = pbufBytes n s' :=
  List.map_congr_left fun k hk => by rw [h k (List.mem_range.1 hk)]

/-- Settles O25: either command is a function of its operands, and its completion shows nothing else. -/
theorem framingDependsOnlyOnOperands : Obligations.FramingDependsOnlyOnOperands := by
  intro s s' i hi hframe hyhdr hscheme hlen hread hw
  have hw' : PbufWritten s'.len.toNat s' := fun k hk => by
    rw [← hlen] at hk
    exact hread k hk ▸ hw k hk
  have hdata : pbufBytes s'.len.toNat s' = pbufBytes s.len.toNat s := by rw [← hlen, pbufBytes_congr hread]
  rcases hi with rfl | rfl
  · obtain ⟨htype, hseq⟩ := hframe rfl
    refine ⟨_, _, exec_frame_written hw, ?_, finishFraming_agrees (fun f => framePacket_isPacket) s s'⟩
    rw [exec_frame_written hw', hdata, hscheme, htype, hseq]
  · refine ⟨_, _, exec_frameYhdr_written hw, ?_, finishFraming_agrees (fun f => headerPacket_isPacket) s s'⟩
    rw [exec_frameYhdr_written hw', hdata, hscheme, hyhdr rfl]

theorem PacketType.cap_eq (t : PacketType) : t.cap = if t = .soh then 128 else 1024 := by cases t <;> rfl

theorem PacketType.byte_eq (t : PacketType) : t.byte = if t = .soh then 0x01#8 else 0x02#8 := by cases t <;> rfl

theorem pbufBytes_getElem? {n k : Nat} {s : State} (hw : PbufWritten n s) (hk : k < n) :
    (pbufBytes n s)[k]? = s.pbuf.read k := by
  obtain ⟨b, hb⟩ := Option.isSome_iff_exists.1 (hw k hk)
  simp [pbufBytes, hk, hb]

theorem framePacket_fits {c : Scheme} {tr : Trailer} (htr : c.trailer? = some tr) {t : PacketType} {data : List Byte}
    (h : data.length ≤ t.cap) (seq : Byte) : framePacket c t seq data = .ok (buildFrame t seq data tr) := by
  rw [framePacket, htr]
  exact if_neg (not_lt.2 h)

theorem headerPacket_fits {c : Scheme} {tr : Trailer} (htr : c.trailer? = some tr) {name : List Byte}
    (h0 : name.length ≠ 0) {size : Word} (h : (headerData name size).length ≤ PacketType.stx.cap) :
    headerPacket c size name = .ok (buildFrame .stx 0#8 (headerData name size) tr) := by
  rw [headerData_length] at h
  rw [headerPacket, htr]
  exact (if_neg h0).trans (if_neg (not_lt.2 h))

theorem headerPacket_nil {c : Scheme} {tr : Trailer} (htr : c.trailer? = some tr) (size : Word) :
    headerPacket c size [] = .ok (buildFrame .stx 0#8 (zeros Config.capStx) tr) := by
  rw [headerPacket, htr]
  rfl

/-- Settles O18, byte by byte of the packet that `FRAME` leaves. -/
theorem frameBuildsThePacket : Obligations.FrameBuildsThePacket := by
  intro s hscheme hlen hw
  obtain ⟨tr, htr⟩ := Scheme.trailer?_of_framing hscheme
  have hfit : (pbufBytes s.len.toNat s).length ≤ s.frameType.cap := by
    rwa [pbufBytes_length, PacketType.cap_eq]
  obtain ⟨hbytes, hflen⟩ := packetBytes_complete hfit s.seq tr s
  obtain ⟨hsum, hcrc⟩ := hbytes.trailer_of_scheme hflen htr
  refine ⟨complete (writeFrame (buildFrame s.frameType s.seq (pbufBytes s.len.toNat s) tr) s), s.frameType.cap,
    paddedPayload s.frameType (pbufBytes s.len.toNat s), s.frameType.cap_eq, ?_, ?_,
    complete_writeFrame_changes _ s, ?_, hbytes.seqByte, hbytes.complementByte, fun k hk => ?_, hsum, hcrc,
    fun k hk => ?_⟩
  · rw [paddedPayload, pbufBytes_length]
  · rw [exec_frame_written hw, framePacket_fits htr hfit, finishFraming]
  · rw [← PacketType.byte_eq]; exact hbytes.typeByte
  · rw [hbytes.payload k hk, paddedPayload_getElem? _ hk, pbufBytes_length]
    split
    · next hk' => exact pbufBytes_getElem? hw hk'
    · rfl
  · exact hbytes.padding k (hflen ▸ hk)

/-- The bytes of a header packet's payload: the name, one zero byte, the size digits (R210). -/
theorem headerData_getElem? (name : List Byte) (size : Word) :
    (∀ k < name.length, (headerData name size)[k]? = name[k]?) ∧
    (headerData name size)[name.length]? = some 0#8 ∧
    ∀ k, (headerData name size)[name.length + 1 + k]? = (dec size)[k]? := by
  refine ⟨fun k hk => ?_, by simp [headerData], fun k => ?_⟩
  · rw [headerData, List.append_assoc, List.getElem?_append_left hk]
  · rw [headerData, List.getElem?_append_right (by simp)]
    simp

/-- Settles O19, byte by byte of the packet that `FRAME_YHDR` leaves for a filename. -/
theorem headerPacketHoldsNameAndSize : Obligations.HeaderPacketHoldsNameAndSize := by
  intro s hscheme hne hlen hw
  obtain ⟨tr, htr⟩ := Scheme.trailer?_of_framing hscheme
  have hname : (pbufBytes s.len.toNat s).length = s.len.toNat := pbufBytes_length _ s
  have hdata : (headerData (pbufBytes s.len.toNat s) s.fileSize).length =
      s.len.toNat + 1 + (dec s.fileSize).length := by
    rw [headerData_length, hname]
  have hfit : (headerData (pbufBytes s.len.toNat s) s.fileSize).length ≤ PacketType.stx.cap := hdata.trans_le hlen
  have hpos : (pbufBytes s.len.toNat s).length ≠ 0 := fun h => hne (BitVec.eq_of_toNat_eq (hname ▸ h))
  obtain ⟨hbytes, hflen⟩ := packetBytes_complete hfit 0#8 tr s
  obtain ⟨hsum, hcrc⟩ := hbytes.trailer_of_scheme hflen htr
  obtain ⟨hbyte, hzero, hdigit⟩ := headerData_getElem? (pbufBytes s.len.toNat s) s.fileSize
  rw [hname] at hbyte hzero hdigit
  refine ⟨complete (writeFrame (buildFrame .stx 0#8 (headerData (pbufBytes s.len.toNat s) s.fileSize) tr) s),
    paddedPayload .stx (headerData (pbufBytes s.len.toNat s) s.fileSize), ?_, ?_,
    complete_writeFrame_changes _ s, hbytes.typeByte, hbytes.seqByte, hbytes.complementByte, fun k hk => ?_, ?_,
    fun k hk => ?_, fun k hk hk' => ?_, fun hc => ⟨(hsum hc).1, (hsum hc).2, ?_⟩, hcrc⟩
  · rw [paddedPayload, hdata]
    rfl
  · rw [exec_frameYhdr_written hw, headerPacket_fits htr hpos hfit, finishFraming]
  · rw [← pbufBytes_getElem? hw hk, ← hbyte k hk]
    exact hbytes.read_data hfit (by omega)
  · rw [← hzero]
    exact hbytes.read_data hfit (by omega)
  · rw [← hdigit k, Nat.add_assoc, Nat.add_assoc, ← Nat.add_assoc s.len.toNat]
    exact hbytes.read_data hfit (by omega)
  · exact hbytes.read_fill (hdata ▸ hk) hk'
  · exact hbytes.padding 1028 (hflen.symm.trans (hsum hc).1).le (le_refl _)

/-- Settles O20: the payload of the end-of-batch packet is zero, and no operand byte is read. -/
theorem footerPacketIsZero : Obligations.FooterPacketIsZero := by
  intro s hscheme hlen
  obtain ⟨tr, htr⟩ := Scheme.trailer?_of_framing hscheme
  have hn : s.len.toNat = 0 := by rw [hlen]; rfl
  have hw : PbufWritten s.len.toNat s := fun k hk => by omega
  have hfit : (zeros Config.capStx).length ≤ PacketType.stx.cap := by simp [PacketType.cap]
  obtain ⟨hbytes, hflen⟩ := packetBytes_complete hfit 0#8 tr s
  have hpad : paddedPayload .stx (zeros Config.capStx) = zeros PacketType.stx.cap := by
    rw [paddedPayload, zeros_length]
    exact List.append_nil _
  rw [hpad] at hbytes
  obtain ⟨hsum, hcrc⟩ := hbytes.trailer_of_scheme hflen htr
  refine ⟨complete (writeFrame (buildFrame .stx 0#8 (zeros Config.capStx) tr) s), ?_,
    complete_writeFrame_changes _ s, ?_, hbytes.typeByte, hbytes.seqByte, hbytes.complementByte,
    fun k hk hk' => hbytes.read_zero hk hk'⟩
  · rw [exec_frameYhdr_written hw, hn]
    exact congrArg (fun r => Host.Outcome.next (finishFraming r s)) (headerPacket_nil htr s.fileSize)
  · rcases hscheme with hc | hc
    · rw [if_pos hc]
      exact BitVec.eq_of_toNat_eq (hsum hc).1
    · rw [if_neg (by simp [hc])]
      exact BitVec.eq_of_toNat_eq (hcrc hc).1

/-- Settles O53: subtracting from 255 complements, and a packet in `FBUF` begins with its header. -/
theorem thirdHeaderByteIsComplement : Obligations.ThirdHeaderByteIsComplement := by
  refine ⟨fun q => ⟨?_, ?_⟩, fun s hs hne => ?_⟩
  · bv_omega
  · bv_omega
  · rcases hs with ⟨h0, _⟩ | ⟨f, ⟨t, seq, p, tr, hp, hf⟩, _, hm⟩
    · exact absurd h0 hne
    · have hbytes := packetBytes_listed hp seq tr hf
      rw [← hm] at hbytes
      exact ⟨seq, hbytes.seqByte, hbytes.complementByte⟩

/-! ### The decimal digits -/

theorem toNat_digitByte {k : Nat} (h : k < 10) : (digitByte k).toNat = 0x30 + k := by
  rw [digitByte, BitVec.toNat_ofNat]
  omega

/-- The digits spell the number (R211). -/
theorem foldl_decDigits {fuel n : Nat} (h : n < 10 ^ fuel) :
    (decDigits fuel n).foldl (fun n b => 10 * n + (b.toNat - 0x30)) 0 = n := by
  induction fuel generalizing n with
  | zero => exact (Nat.lt_one_iff.1 h).symm
  | succ fuel ih =>
    have hlast : n % 10 < 10 := Nat.mod_lt _ (by decide)
    unfold decDigits
    split
    · next hn => simp [toNat_digitByte hn]
    · rw [List.foldl_append, ih (by omega), List.foldl_cons, List.foldl_nil, toNat_digitByte hlast]
      omega

theorem decDigits_length_pos (fuel n : Nat) : 0 < (decDigits (fuel + 1) n).length := by
  unfold decDigits
  split <;> simp

theorem decDigits_isDigit {fuel n : Nat} {b : Byte} (h : b ∈ decDigits fuel n) : ∃ k < 10, b = digitByte k := by
  induction fuel generalizing n with
  | zero => cases h
  | succ fuel ih =>
    unfold decDigits at h
    split at h
    · next hn => exact ⟨n, hn, List.mem_singleton.1 h⟩
    · rcases List.mem_append.1 h with h | h
      · exact ih h
      · exact ⟨n % 10, Nat.mod_lt _ (by decide), List.mem_singleton.1 h⟩

/-- A number other than 0 is spelled with no leading zero (R211). -/
theorem decDigits_head {fuel n : Nat} (h : n < 10 ^ fuel) (h0 : n ≠ 0) : (decDigits fuel n).head? ≠ some 0x30#8 := by
  induction fuel generalizing n with
  | zero => exact nofun
  | succ fuel ih =>
    unfold decDigits
    split
    · next hn =>
      intro he
      have hbyte : (digitByte n).toNat = 0x30 := congrArg BitVec.toNat (Option.some.inj he)
      rw [toNat_digitByte hn] at hbyte
      omega
    · next hn =>
      have hspell := foldl_decDigits (fuel := fuel) (n := n / 10) (by omega)
      have hne : decDigits fuel (n / 10) ≠ [] := fun he => by
        rw [he, List.foldl_nil] at hspell
        omega
      rw [List.head?_append_of_ne_nil _ hne]
      exact ih (by omega) (by omega)

/-- Settles O52, by induction over the digits. -/
theorem decimalDigitsSpellTheSize : Obligations.DecimalDigitsSpellTheSize := by
  refine ⟨fun size => ?_, by decide, by decide⟩
  have hlt : size.toNat < 10 ^ 10 := size.isLt.trans (by decide)
  refine ⟨foldl_decDigits hlt, decDigits_length_pos 9 _, decDigits_length_le 10 _, fun b hb => ?_, fun hne => ?_⟩
  · obtain ⟨k, hk, rfl⟩ := decDigits_isDigit hb
    rw [toNat_digitByte hk]
    omega
  · exact decDigits_head hlt fun h0 => hne (BitVec.eq_of_toNat_eq h0)

/-! ### `SEQ_INC` -/

theorem exec_seqInc (s : State) : exec .seqInc s = .next (complete { s with seq := s.seq + 1#8 }) := rfl

/-- `n` times `SEQ_INC` after a completed command (R220). -/
theorem execAll_seqInc (n : Nat) (s : State) :
    execAll (List.replicate n .seqInc) (complete s) = .next (complete { s with seq := s.seq + BitVec.ofNat 8 n }) := by
  induction n generalizing s with
  | zero => simp [execAll]
  | succ n ih =>
    have hone : exec .seqInc (complete s) = .next (complete { s with seq := s.seq + 1#8 }) := rfl
    rw [List.replicate_succ, execAll_cons_of_next hone, ih, BitVec.add_assoc, ← BitVec.ofNat_add, Nat.add_comm]

theorem seq_add_ofNat (q : Byte) (n : Nat) : q + BitVec.ofNat 8 n = BitVec.ofNat 8 ((q.toNat + n) % 256) := by
  apply BitVec.eq_of_toNat_eq
  simp

/-- Settles O21, by the meaning of `SEQ_INC`: adding to a byte is adding modulo 256. -/
theorem seqIncAddsOneModulo256 : Obligations.SeqIncAddsOneModulo256 := by
  intro s
  rw [exec_seqInc, seq_add_ofNat]
  rfl

/-- Settles O22, by induction on the performances after the first. -/
theorem repeatedSeqIncWraps : Obligations.RepeatedSeqIncWraps := by
  intro s n hn
  obtain ⟨m, rfl⟩ := Nat.exists_eq_add_of_le' hn
  rw [List.replicate_succ, execAll_cons_of_next (exec_seqInc s), execAll_seqInc, BitVec.add_assoc, ← BitVec.ofNat_add,
    Nat.add_comm 1, seq_add_ofNat s.seq (m + 1)]
  rfl

end Sys2Proof.Machine
end

section
/-! PROOF. Exceptions: the order of a command's checks, the error record that the first error holds, and `irq`
(`60_exceptions.md` R241, R247, R250). -/

namespace Sys2Proof.Machine

/-! ### The checks of a command -/

/-- A scheme without a framing meaning asks for no trailer (R202). -/
theorem Scheme.trailer?_of_notFraming {c : Scheme} (h : c = .none ∨ c = .reserved) : c.trailer? = Option.none := by
  rcases h with rfl | rfl <;> rfl

/-- The scheme is the first check of `FRAME` (R202). -/
theorem execFrame_badScheme {s : State} (h : s.frameScheme.trailer? = none) :
    execFrame s = .next (errorComplete .badScheme s) := by rw [execFrame, h]

/-- The scheme is the first check of `FRAME_YHDR` (R202). -/
theorem execFrameYhdr_badScheme {s : State} (h : s.frameScheme.trailer? = none) :
    execFrameYhdr s = .next (errorComplete .badScheme s) := by rw [execFrameYhdr, h]

/-- `FRAME` checks the length before it reads an operand byte (R203). -/
theorem execFrame_payloadTooLarge {s : State} {tr : Trailer} (htr : s.frameScheme.trailer? = some tr)
    (h : s.frameType.cap < s.len.toNat) : execFrame s = .next (errorComplete .payloadTooLarge s) := by
  rw [execFrame, htr]
  exact if_pos h

/-- `FRAME_YHDR` with a filename checks the length of the payload before it reads an operand byte (R213). -/
theorem execFrameYhdr_payloadTooLarge {s : State} {tr : Trailer} (htr : s.frameScheme.trailer? = some tr)
    (h0 : s.len ≠ 0#16) (h : 1024 < s.len.toNat + 1 + (dec s.fileSize).length) :
    execFrameYhdr s = .next (errorComplete .payloadTooLarge s) := by
  rw [execFrameYhdr, htr]
  exact (if_neg h0).trans (if_pos h)

/-- `CALC_BUF` checks the length before it reads an operand byte (R180). -/
theorem execCalcBuf_lengthRange {s : State} (h : 1024 < s.len.toNat) :
    execCalcBuf s = .next (errorComplete .lengthRange s) := if_pos h

/-- Settles O23, check by check: each one is met before any `PBUF` byte is loaded, and failing it is an error
completion. -/
theorem commandChecksInOrder : Obligations.CommandChecksInOrder := by
  refine fun s w => ⟨fun hw => performWord_illegal hw s, fun hscheme => ?_, fun hscheme => ?_,
    execCalcBuf_lengthRange⟩
  · have htr := Scheme.trailer?_of_notFraming hscheme
    exact ⟨execFrame_badScheme htr, execFrameYhdr_badScheme htr⟩
  · obtain ⟨tr, htr⟩ := Scheme.trailer?_of_framing hscheme
    refine ⟨fun hcap => ?_, execFrameYhdr_payloadTooLarge htr⟩
    rw [← PacketType.cap_eq] at hcap
    exact execFrame_payloadTooLarge htr hcap

/-! ### The error record -/

/-- While `ERR` is 1 recording an error changes nothing (R241). -/
theorem recordError_of_err {s : State} (h : s.err = true) (c : ErrCode) : recordError c s = s := by
  rw [recordError, if_pos h, ← h]

/-- While `ERR` is 0 recording an error sets `ERR` and its code (R241). -/
theorem recordError_of_noErr {s : State} (h : s.err = false) (c : ErrCode) :
    recordError c s = { s with err := true, errCode := c } := by
  rw [recordError, if_neg (by simp [h])]

/-- While `ERR` is 1 an error completion is a plain completion (R241, R244). -/
theorem errorComplete_of_err {s : State} (h : s.err = true) (c : ErrCode) : errorComplete c s = complete s :=
  congrArg complete (recordError_of_err h c)

/-- `t` holds a recorded error, with the code that `s` has (R241). -/
def ErrorKept (s t : State) : Prop := t.err = true ∧ t.errCode = s.errCode

theorem errorKept_performWord {w : Word} {s t : State} (he : s.err = true) (h : performWord w s = .next t) :
    ErrorKept s t := by
  rcases performWord_next h with ⟨_, rfl⟩ | ⟨i, _, hi⟩
  · rw [errorComplete_of_err he]
    exact ⟨he, rfl⟩
  · obtain ⟨_, _, _, _, hkeep⟩ := commandsWriteOnlyTheirResults i s t hi
    exact hkeep he

/-- An offset names the register whose offset it is. -/
theorem regAt_eq_some {off : Nat} {r : Reg} (h : regAt off = some r) : off = r.offset := by
  rw [regAt] at h
  have hoff := List.find?_some h
  exact (beq_iff_eq.1 hoff).symm

/-- A stored register write keeps a recorded error, but for a write of 1 to `STATUS[2]` (R34). -/
theorem errorKept_storeReg {s : State} (he : s.err = true) (r : Reg) (v : Word) :
    ErrorKept s (storeReg r v s) ∨ (r = .status ∧ v.getLsbD 2 = true) := by
  cases r with
  | status =>
    cases hv : v.getLsbD 2 with
    | false =>
      rw [storeReg, ErrorKept, writeStatus_err, writeStatus_errCode, hv, he]
      exact .inl ⟨rfl, rfl⟩
    | true => exact .inr ⟨rfl, rfl⟩
  | _ => exact .inl ⟨he, rfl⟩

/-- A host access keeps a recorded error, but for a write of 1 to `STATUS[2]` (R241). -/
theorem errorKept_hostAccess {a : Access} {s t : State} (he : s.err = true) (h : hostAccess a s = .next t) :
    ErrorKept s t ∨ ∃ v, a = .write 0x008 .b4 v ∧ v.getLsbD 2 = true := by
  rcases hostAccess_next h with ⟨_, rfl⟩ | ⟨_, hl, ⟨_, _, _, _, _, rfl⟩ | ⟨off, n, v, rfl, rfl⟩⟩
  · exact .inl ⟨he, rfl⟩
  · exact .inl ⟨he, rfl⟩
  · rcases hostWrite_cases off n v s with hw | ⟨_, hw⟩ | ⟨r, hr, _, hw⟩ | ⟨_, _, hw⟩ <;> rw [hw]
    · exact .inl ⟨he, rfl⟩
    · rw [blockedWrite_eq, recordError_of_err he]
      exact .inl ⟨he, rfl⟩
    · refine (errorKept_storeReg he r v).imp id ?_
      rintro ⟨rfl, hv⟩
      obtain rfl : off = 0x008 := regAt_eq_some hr
      obtain ⟨rfl, _⟩ : n = .b4 ∧ 0x008 % 4 = 0 := (Access.legal_iff _).1 hl
      exact ⟨v, rfl, hv⟩
    · exact .inl ⟨he, rfl⟩

/-- A step keeps a recorded error, unless it is a reset or a write of 1 to `STATUS[2]` (R241). -/
theorem errorKept_step {s t : State} (he : s.err = true) (h : step s = .next t) :
    ErrorKept s t ∨ (∃ rest, s.schedule = .reset :: rest) ∨
    ∃ v rest, s.schedule = .access (.write 0x008 .b4 v) :: rest ∧ v.getLsbD 2 = true := by
  rcases step_next h with ⟨a, rest, hs, ha⟩ | ⟨rest, hs, _⟩ | ⟨w, rest, _, _, hw⟩ | ⟨rest, _, _, rfl⟩
  · rcases errorKept_hostAccess (s := withSchedule rest s) he ha with hk | ⟨v, rfl, hv⟩
    · exact .inl hk
    · exact .inr (.inr ⟨v, rest, hs, hv⟩)
  · exact .inr (.inl ⟨rest, hs⟩)
  · exact .inl (errorKept_performWord (s := withSchedule rest s) he hw)
  · exact .inl ⟨he, rfl⟩

/-- `ERRCODE` stays 0 while `ERR` is 0 (R241). -/
theorem step_noErr_code {s t : State} (hs : s.err = false → s.errCode = ErrCode.none) (h : step s = .next t)
    (ht : t.err = false) : t.errCode = ErrCode.none := by
  rcases step_error h with ⟨he, hc⟩ | ⟨_, hc⟩ | ⟨_, _, he, _⟩
  · rw [hc, hs (he ▸ ht)]
  · exact hc
  · cases he.symm.trans ht

/-- Settles O41, by the agent that takes the step and by what recording an error does. -/
theorem firstErrorSticks : Obligations.FirstErrorSticks :=
  ⟨fun _ _ => errorKept_step, fun _ c h => recordError_of_noErr h c, fun _ c h => errorComplete_of_err h c,
    fun _ _ => step_noErr_code⟩

/-! ### The interrupt -/

/-- `CTRL[0]` is `IE_DONE` and `CTRL[1]` is `IE_ERR` (R32). -/
theorem getLsbD_ctrl (s : State) :
    (regValue .ctrl s).getLsbD 0 = s.ieDone ∧ (regValue .ctrl s).getLsbD 1 = s.ieErr := by
  simp only [regValue, BitVec.getLsbD_or, getLsbD_placeBit]
  simp

/-- `STATUS[1]` is `DONE` and `STATUS[2]` is `ERR` (R33). -/
theorem getLsbD_status (s : State) :
    (regValue .status s).getLsbD 1 = s.done ∧ (regValue .status s).getLsbD 2 = s.err := by
  simp only [regValue, statusWord, placeField, BitVec.getLsbD_or, BitVec.getLsbD_shiftLeft, getLsbD_placeBit]
  simp

/-- Settles O42, from the bits of `CTRL` and `STATUS`; a reset clears both enables. -/
theorem irqIsEnabledFlags : Obligations.IrqIsEnabledFlags := by
  refine ⟨fun s => ?_, fun _ => rfl⟩
  obtain ⟨hieDone, hieErr⟩ := getLsbD_ctrl s
  obtain ⟨hdone, herr⟩ := getLsbD_status s
  rw [irq, hieDone, hieErr, hdone, herr]

end Sys2Proof.Machine
end

section
/-! PROOF. Reset and hazards: what a reset makes of a command in flight, and the two orders of a performance and a host
write that follows the issue at once (`70_reset_and_hazards.md` R281, R293). -/

namespace Sys2Proof.Machine

/-! ### A reset -/

theorem step_reset {s : State} {rest : List Event} (hs : s.schedule = .reset :: rest) :
    step s = .next (resetBlock (withSchedule rest s)) := step_of_schedule_cons hs

/-- A reset keeps of a state only the steps to come and the count of free values (R280, R281). -/
theorem resetBlock_congr {s s' : State} (hs : s.schedule = s'.schedule) (hd : s.draws = s'.draws) :
    resetBlock s = resetBlock s' := by
  rw [resetBlock, resetBlock, hs, hd]

/-- Settles O7: each reset step ends in the reset of its state, and the two states agree in all that a reset keeps. -/
theorem resetForgetsTheCommandInFlight : Obligations.ResetForgetsTheCommandInFlight := by
  intro s s' rest
  refine ⟨resetBlock (withSchedule rest s), step_reset rfl, (step_reset rfl).trans ?_, rfl, rfl, rfl, rfl⟩
  exact congrArg _ (resetBlock_congr rfl rfl)

/-! ### A write issued right after a command -/

/-- A host write of a register as the next step, while no command is pending. -/
theorem step_writeReg_idle {s : State} {r : Reg} {v : Word} {rest : List Event} (hp : s.pending = none)
    (hs : s.schedule = w32 r.offset v :: rest) :
    step s = .next (acknowledge (storeReg r v (withSchedule rest s))) :=
  (step_of_schedule_cons hs).trans (hostAccess_writeReg_idle (s := withSchedule rest s) hp r v)

/-- A blocked host write as the next step, on a busy block with no error recorded yet (R146, R241). -/
theorem step_writeReg_firstViolation {s : State} {r : Reg} {v : Word} {rest : List Event}
    (hb : s.pending.isSome = true) (hr : r.isBlocked = true) (he : s.err = false)
    (hs : s.schedule = w32 r.offset v :: rest) :
    step s = .next (acknowledge { withSchedule rest s with err := true, errCode := .busyViolation }) := by
  rw [step_of_schedule_cons hs, w32, eventStep, hostAccess_writeReg_blocked (s := withSchedule rest s) hb hr,
    blockedWrite_eq, recordError_of_noErr (s := withSchedule rest s) he]

/-- The performance of `SEQ_INC` as the next step (R220). -/
theorem step_seqInc {s : State} {rest : List Event} (hp : s.pending = some (encode .seqInc))
    (hs : s.schedule = .perform :: rest) :
    step s = .next (complete { s with seq := s.seq + 1#8, schedule := rest }) := by
  rw [step_perform rfl hp hs, exec_seqInc]

/-- A run of three steps that go on. -/
theorem reaches_three {s t u v : State} (hst : step s = .next t) (htu : step t = .next u) (huv : step u = .next v) :
    Reaches 3 s v :=
  reaches_trans (reaches_trans (reaches_one hst) (reaches_one htu)) (reaches_one huv)

/-- With the performance first, the write finds the block idle and overwrites the incremented `SEQ` (R293). -/
theorem reaches_issue_perform_write {s : State} (hp : s.pending = none)
    (hs : s.schedule = issue .seqInc ++ [.perform, w32 Reg.seq.offset 0x05#32]) :
    Reaches 3 s { s with
      seq := 0x05#8, done := true, pending := none, schedule := [], lastResponse := some .ack } :=
  reaches_three (step_issue hp hs) (step_seqInc rfl rfl) (step_writeReg_idle (r := .seq) (v := 0x05#32) rfl rfl)

/-- With the write first, it finds the block busy and is lost to `BUSY_VIOLATION`; the performance still completes (R146,
R293). -/
theorem reaches_issue_write_perform {s : State} (hp : s.pending = none) (he : s.err = false)
    (hs : s.schedule = issue .seqInc ++ [w32 Reg.seq.offset 0x05#32, .perform]) :
    Reaches 3 s { s with
      seq := s.seq + 1#8, done := true, err := true, errCode := .busyViolation, pending := none, schedule := []
      lastResponse := some .ack } :=
  reaches_three (step_issue hp hs) (step_writeReg_firstViolation (r := .seq) rfl rfl he rfl) (step_seqInc rfl rfl)

/-- Settles O55, by the three steps of each order; the latch ends empty, as it was. -/
theorem issueThenWriteAdmitsBothOrders : Obligations.IssueThenWriteAdmitsBothOrders := by
  refine fun s hp he => ⟨fun hs => ?_, fun hs => ?_⟩
  · have h := reaches_issue_perform_write hp hs
    rwa [← hp] at h
  · have h := reaches_issue_write_perform hp he hs
    rwa [← hp] at h

end Sys2Proof.Machine
end
